-- ==== Sys2Proof/Word.lean ====
section
/-! DEFINITION. The widths of the SFS: the input byte and the sample of rule R12 (spec/00_scope.md), and the
11-bit decode word of rule R49 (spec/30_encoding.md). Every value is unsigned, bit 0 least significant (R14). -/

namespace Sys2Proof

/-- An input byte, 8 bits, unsigned (R12). -/
abbrev Byte := BitVec 8

/-- A sample, 16 bits, unsigned (R12). -/
abbrev Sample := BitVec 16

/-- The decode word `W = {rst, mode, in_valid, in_data[7:0]}`, 11 bits (R49). -/
abbrev DecodeWord := BitVec 11

end Sys2Proof
end

