-- ==== Sys2Proof/Config.lean ====
section
/-! DEFINITION. The parameters of the block, fixed for this hardware at the values of rules R8 to R11
(spec/00_scope.md, R13). No rule of the SFS makes a draw or a choice (R77), so there is no free value here. -/

namespace Sys2Proof.Config

/-- `N_SAMPLES = 288` (R8). UNVERIFIED against the repository (assumption log 10, decision D10). Unsafe. -/
abbrev nSamples : Nat := 288

/-- `FRAME_BYTES = 576 = 2 * N_SAMPLES` (R9). UNVERIFIED against the repository (assumption log 10). Unsafe. -/
abbrev frameBytes : Nat := 576

/-- `LF = 0x0A`, the line terminator (R11). -/
abbrev lf : Byte := 0x0A#8

/-- `MARKER`, the seven ASCII bytes of the marker line with its terminator (R10). The codes are the spec's own general
knowledge (G1, G2), UNVERIFIED against the repository (assumption log 10). Unsafe. -/
def marker : List Byte := [0x21#8, 0x73#8, 0x70#8, 0x65#8, 0x6B#8, 0x21#8, 0x0A#8]

/-- `MARKER_LEN = 7` (R10). -/
abbrev markerLen : Nat := 7

/-- The payload of one frame: `FRAME_BYTES` bytes in arrival order (R17, R38). -/
abbrev Frame := Vector Byte frameBytes

/-- A Spectrum: `N_SAMPLES` samples indexed by pixel (R17, R25). -/
abbrev Spectrum := Vector Sample nSamples

end Sys2Proof.Config
end

