-- ==== Sys2Proof/Syntax.lean ====
section
/-! DEFINITION. The operations of the SFS (R2): the five rows of spec/opcode_table.json, with the fields their
encodings carry. RESET and IDLE keep the fields they ignore, so that an operation stands for exactly one decode
word (assumption log 8). -/

namespace Sys2Proof

/-- The two states of the decoder, `AwaitingMarker` and `AwaitingPayload` (R20). -/
inductive Mode where
  /-- `M`, encoded 0. -/
  | M
  /-- `P`, encoded 1. -/
  | P
deriving DecidableEq, Repr

/-- The operation names of the table in R50. -/
inductive Op where
  | reset
  | idle
  | mLf
  | mChr
  | pByte
deriving DecidableEq, Repr

/-- One operation with its operands, one constructor per row of spec/opcode_table.json. -/
inductive Instr where
  /-- RESET (R91): `rst = 1`. `mode`, `in_valid` and `in_data` are in the word and ignored. -/
  | reset (mode : Mode) (inValid : Bool) (inData : Byte)
  /-- IDLE (R57): no input byte. `mode` and `in_data` are in the word and ignored. -/
  | idle (mode : Mode) (inData : Byte)
  /-- M_LF (R58): the line terminator in mode `M`. -/
  | mLf
  /-- M_CHR (R59): the byte `b`, not `LF`, in mode `M`. -/
  | mChr (b : Byte)
  /-- P_BYTE (R62): the payload byte `b` in mode `P`. -/
  | pByte (b : Byte)
deriving DecidableEq, Repr

/-- The operation an instruction belongs to. -/
def Instr.op : Instr → Op
  | .reset _ _ _ => .reset
  | .idle _ _ => .idle
  | .mLf => .mLf
  | .mChr _ => .mChr
  | .pByte _ => .pByte

end Sys2Proof
end

