-- ==== Sys2Proof/WellFormed.lean ====
section
/-! DEFINITION. Which terms of `Instr` stand for a decode word. The only constraint the table puts on an operand is
M_CHR's: its byte is not `LF`, which priority gives to M_LF (R50, R59). -/

namespace Sys2Proof

/-- The operand constraint of R59: `b != 0x0A`. -/
def Instr.wellFormed : Instr → Bool
  | .reset _ _ _ => true
  | .idle _ _ => true
  | .mLf => true
  | .mChr b => b != Config.lf
  | .pByte _ => true

end Sys2Proof
end

