-- ==== Sys2Proof/Decode.lean ====
section
/-! DEFINITION. The decode word (R49), the operation table in priority order (R50), the decoder, and after it the
encoder written from the same encodings (spec/30_encoding.md, spec/opcode_table.json). The word is notional, so its
layout in bytes is the model's: two bytes, the less significant first, the five bits above bit 10 zero
(DESIGN CHOICE, assumption log 1). -/

namespace Sys2Proof

/-- `M` is encoded 0 and `P` is encoded 1 (R20). -/
def Mode.bit : Mode → BitVec 1
  | .M => 0#1
  | .P => 1#1

/-- The mode that a bit encodes (R20). -/
def Mode.ofBit (b : Bool) : Mode :=
  if b then .P else .M

/-- `W = {rst, mode, in_valid, in_data[7:0]}` (R49). -/
def formWord (rst : Bool) (mode : Mode) (inValid : Bool) (inData : Byte) : DecodeWord :=
  BitVec.ofBool rst ++ mode.bit ++ BitVec.ofBool inValid ++ inData

/-- `W[10]` (R49). -/
def wordRst (w : DecodeWord) : Bool := w.getLsbD 10

/-- `W[9]` (R49). -/
def wordMode (w : DecodeWord) : Mode := Mode.ofBit (w.getLsbD 9)

/-- `W[8]` (R49). -/
def wordValid (w : DecodeWord) : Bool := w.getLsbD 8

/-- `W[7:0]` (R49). -/
def wordData (w : DecodeWord) : Byte := w.extractLsb' 0 8

/-- One row of the operation table (R50). -/
structure OpRow where
  op : Op
  mask : DecodeWord
  pattern : DecodeWord
deriving DecidableEq, Repr

/-- The operation table in priority order, 0 first (R50). -/
def opTable : List OpRow :=
  [ ⟨.reset, 0x400#11, 0x400#11⟩,
    ⟨.idle,  0x500#11, 0x000#11⟩,
    ⟨.mLf,   0x7FF#11, 0x10A#11⟩,
    ⟨.mChr,  0x700#11, 0x100#11⟩,
    ⟨.pByte, 0x700#11, 0x300#11⟩ ]

/-- `(W & mask) == match` (R50). -/
def OpRow.selects (r : OpRow) (w : DecodeWord) : Bool :=
  (w &&& r.mask) == r.pattern

/-- The first row that matches selects the operation (R50). -/
def selectOp (w : DecodeWord) : Option Op :=
  (opTable.find? fun r => r.selects w).map OpRow.op

/-- The operands an operation takes from the decode word ("source_fields" of spec/opcode_table.json). -/
def instrOfOp (op : Op) (w : DecodeWord) : Instr :=
  match op with
  | .reset => .reset (wordMode w) (wordValid w) (wordData w)
  | .idle => .idle (wordMode w) (wordData w)
  | .mLf => .mLf
  | .mChr => .mChr (wordData w)
  | .pByte => .pByte (wordData w)

/-- Why a word or a string of bytes is not an operation. -/
inductive DecodeReject where
  /-- No row of the table matches. R51: there is no such word. -/
  | noRow (w : DecodeWord)
  /-- A bit above `W[10]` is set: the decode word has 11 bits (R49). -/
  | bitsAboveWord (high : Byte)
  /-- Fewer than two bytes. -/
  | tooShort
deriving DecidableEq, Repr

/-- Decode one decode word (R50). -/
def decodeWord (w : DecodeWord) : Except DecodeReject Instr :=
  match selectOp w with
  | some op => .ok (instrOfOp op w)
  | none => .error (.noRow w)

/-- Decode the operation at the head of a string of bytes and return the rest. -/
def decodeBytes : List Byte → Except DecodeReject (Instr × List Byte)
  | lo :: hi :: rest =>
    if hi.toNat < 8 then
      (decodeWord (hi.setWidth 3 ++ lo)).map fun i => (i, rest)
    else
      .error (.bitsAboveWord hi)
  | [_] => .error .tooShort
  | [] => .error .tooShort

/-- The two bytes a number below 2^16 is laid out in, the less significant first (assumption log 1). -/
def tableWordBytes (v : Nat) : List Byte :=
  [BitVec.ofNat 8 v, BitVec.ofNat 8 (v / 256)]

/-- The operation the decoder reads from an operation whose bits are `w`, bits above `nbits` zero. -/
def decodeTableWord (nbits w : Nat) : Option Instr :=
  let v := w % 2 ^ nbits
  if v < 65536 then
    match decodeBytes (tableWordBytes v) with
    | .ok (i, _) => some i
    | .error _ => none
  else
    none

/-- The encoder: the decode word of an operation, from the encodings of R49 and R50. -/
def encode : Instr → DecodeWord
  | .reset mode inValid inData => formWord true mode inValid inData
  | .idle mode inData => formWord false mode false inData
  | .mLf => formWord false .M true Config.lf
  | .mChr b => formWord false .M true b
  | .pByte b => formWord false .P true b

/-- The two bytes of an operation's decode word (assumption log 1). -/
def encodeBytes (i : Instr) : List Byte :=
  tableWordBytes (encode i).toNat

end Sys2Proof
end

