-- ==== Sys2Proof/Machine/State.lean ====
section
/-! DEFINITION. The state of the SFS as plain data (spec/10_state.md R20-R26), the reset state (R33), and the reasons
a step can stop. -/

namespace Sys2Proof.Machine

open Sys2Proof.Config

/-- The payload buffer's contents (R24, R34): the written entries, by strictly rising address. An address that is not
listed holds no value (R37), so no entry equals what an unlisted address reads as. -/
abbrev Memory := List Host.Cell

/-- The values of the input pins at one clock edge (R28). -/
structure Input where
  rst : Bool
  inValid : Bool
  inData : Byte
deriving DecidableEq, Repr

/-- Everything the spec gives the machine (spec/10_state.md), and the inputs still to come. -/
structure State where
  /-- R20, 1 bit. -/
  mode : Mode
  /-- R21, 3 bits. -/
  mpos : BitVec 3
  /-- R22, 1 bit. -/
  mdead : Bool
  /-- R23, 10 bits. -/
  pcount : BitVec 10
  /-- R24, 576 bytes. -/
  pbuf : Memory
  /-- R25: no value, or the Spectrum last emitted. -/
  outSpec : Option Spectrum
  /-- R26, 1 bit. -/
  outValid : Bool
  /-- The model's own field: the pins at the coming edges, the next edge first (DESIGN CHOICE, assumption log 2). -/
  inputs : List Input
deriving DecidableEq, Repr

/-- Where a read found no value (R80). -/
inductive NoValueAt where
  /-- The consumer read `out_spec` while it held no value (R74). -/
  | outSpec
  /-- A `pbuf` entry that was never written was read (R37). -/
  | pbuf (a : Nat)
deriving DecidableEq, Repr

/-- The faults of the model. R80: exactly one. -/
inductive Fault where
  /-- A read of something that holds no value (R80). Raised by `memRead` (so by an emission over a buffer that is not
  full, which no state of R30 makes) and by the consumer's read of `out_spec`. Safe: the hardware would show some
  bits there and goes on (D8). -/
  | noValue (at_ : NoValueAt)
deriving DecidableEq, Repr

/-- The refusals of the model. -/
inductive Refusal where
  /-- An operation without a meaning. No arm of `exec` raises it. Safe. -/
  | notModelled (mnemonic : String)
  /-- The decode word matches no row. Raised by `step`, for no word at all (R51). Safe. -/
  | noOperation (w : DecodeWord)
  /-- An access to an address of `pbuf` that does not exist (R35). Raised by `memWrite` and `memRead`, so by P_BYTE
  with `pcount` above 575, which no state of R30 has. Safe (DESIGN CHOICE, assumption log 6). -/
  | noSuchAddress (a : Nat)
deriving DecidableEq, Repr

/-- The state after a RESET step (R33, R91). Which inputs come next is the environment's: none are presented yet
(DESIGN CHOICE, assumption log 2). -/
def State.reset : State where
  mode := .M
  mpos := 0#3
  mdead := false
  pcount := 0#10
  pbuf := []
  outSpec := none
  outValid := false
  inputs := []

end Sys2Proof.Machine
end

