-- ==== Sys2Proof/Machine/Ops.lean ====
section
/-! DEFINITION. The named operations every meaning is written over: the outcome of a partial operation, MemRead and
MemWrite on `pbuf` (spec/20_memory.md R35-R37, spec/00_scope.md R15), and the named updates of the state.
The SFS takes no exception, has no trap entry and no return from one (spec/60_exceptions.md R78, R82, R84), so there is
no such operation here. -/

namespace Sys2Proof.Machine

open Sys2Proof.Config

/-- What an operation of the model answers: a value, or one of the stops of a step. -/
abbrev Answer (α : Type) := Host.Outcome α Fault Refusal

/-- Go on with the value, or stop as the first operation stopped. -/
def andThen {α β : Type} (x : Answer α) (f : α → Answer β) : Answer β :=
  match x with
  | .next a => f a
  | .fault r => .fault r
  | .refused r => .refused r

/-! ### The payload buffer -/

/-- The one canonical form of `pbuf`: addresses strictly rising, all of them in `0..575` (R34). -/
abbrev Memory.wf (m : Memory) : Prop :=
  m.Pairwise (fun c d => c.1 < d.1) ∧ ∀ c ∈ m, c.1 < frameBytes

/-- The byte an entry holds, if it holds one (R24, R37). -/
def Memory.get? (m : Memory) (a : Nat) : Option Byte :=
  m.lookup a

/-- The buffer with entry `a` holding `v`, in canonical form. -/
def Memory.put (a : Nat) (v : Byte) : Memory → Memory
  | [] => [(a, v)]
  | (b, w) :: rest =>
    if a < b then (a, v) :: (b, w) :: rest
    else if a = b then (a, v) :: rest
    else (b, w) :: Memory.put a v rest

/-- `MemWrite(a, 1, v)` (R35). A write to an address outside `0..575` does not exist and is refused. -/
def memWrite (a : Nat) (v : Byte) (m : Memory) : Answer Memory :=
  if a < frameBytes then .next (Memory.put a v m) else .refused (.noSuchAddress a)

/-- `MemRead(a, 1)` (R36). An entry not written since reset holds no value, and reading it faults (R37, R80). -/
def memRead (a : Nat) (m : Memory) : Answer Byte :=
  if a < frameBytes then
    match Memory.get? m a with
    | some v => .next v
    | none => .fault (.noValue (.pbuf a))
  else
    .refused (.noSuchAddress a)

/-- The first `n` bytes of the buffer, each through `memRead`, address 0 first. -/
def readBytes (m : Memory) : (n : Nat) → Answer (Vector Byte n)
  | 0 => .next #v[]
  | n + 1 => andThen (readBytes m n) fun bs => andThen (memRead n m) fun b => .next (bs.push b)

/-- The payload of the current frame: every byte of the buffer (R63). -/
def readFrame (m : Memory) : Answer Frame :=
  readBytes m frameBytes

/-! ### Named updates of the state -/

/-- `out_valid <- 0`. -/
def State.clearValid (s : State) : State := { s with outValid := false }

/-- `mode <- P` (R58). -/
def State.enterPayload (s : State) : State := { s with mode := .P }

/-- `mpos <- 0; mdead <- 0`: the next byte starts a new line (R58). -/
def State.startLine (s : State) : State := { s with mpos := 0#3, mdead := false }

/-- `mpos <- mpos + 1` (R59). -/
def State.extendLine (s : State) : State := { s with mpos := s.mpos + 1#3 }

/-- `mdead <- 1; mpos <- 0` (R59, C6 of spec/90_conflicts.md). -/
def State.killLine (s : State) : State := { s with mpos := 0#3, mdead := true }

/-- The payload buffer holds `m`. -/
def State.setPbuf (s : State) (m : Memory) : State := { s with pbuf := m }

/-- `pcount <- pcount + 1` (R62). -/
def State.countPayload (s : State) : State := { s with pcount := s.pcount + 1#10 }

/-- `emit(S)` (R66): the whole Spectrum at once, the pulse, and back to the marker search. -/
def State.emit (s : State) (spectrum : Spectrum) : State :=
  { s with outSpec := some spectrum, outValid := true, mode := .M, pcount := 0#10 }

/-- The reset values of R33 in every register, the coming inputs kept (R91). R91 lets a model keep or drop the bytes
of `pbuf`: they are dropped (DESIGN CHOICE, assumption log 5). -/
def State.clear (s : State) : State := { State.reset with inputs := s.inputs }

/-- The pins of the coming edges are `ins` (assumption log 2). -/
def State.present (s : State) (ins : List Input) : State := { s with inputs := ins }

/-- The edge is past: the next entry of `inputs` is consumed, and a byte in it cannot be read again (R43). -/
def State.consumeInput (s : State) : State := { s with inputs := s.inputs.tail }

end Sys2Proof.Machine
end

