-- ==== Sys2Proof/Machine/Operands.lean ====
section
/-! DEFINITION. What a step reads before it acts: the input pins of the edge (spec/10_state.md R28), the decode word
they form with the mode (spec/30_encoding.md R49), and the byte of the marker at a line position. -/

namespace Sys2Proof.Machine

open Sys2Proof.Config

/-- The pins at the coming edge. Where the environment presents nothing more, the pins carry no byte and no reset
(DESIGN CHOICE, assumption log 2). -/
def State.nextInput (s : State) : Input :=
  match s.inputs with
  | i :: _ => i
  | [] => ⟨false, false, 0#8⟩

/-- `W = {rst, mode, in_valid, in_data[7:0]}`, formed from the inputs and the mode of the state (R49). -/
def State.decodeWord (s : State) : DecodeWord :=
  formWord s.nextInput.rst s.mode s.nextInput.inValid s.nextInput.inData

/-- The decode word that `nbits` table bits of the number `w` stand for (assumption log 3). -/
def fetchWord (nbits w : Nat) : DecodeWord :=
  BitVec.ofNat 11 (w % 2 ^ nbits)

/-- The pins that carry the decode word `w`: `W[10]`, `W[8]` and `W[7:0]` (R49). -/
def fetchInput (nbits w : Nat) : Input :=
  ⟨wordRst (fetchWord nbits w), wordValid (fetchWord nbits w), wordData (fetchWord nbits w)⟩

/-- The mode that the decode word `w` carries: `W[9]` (R49). -/
def fetchMode (nbits w : Nat) : Mode :=
  wordMode (fetchWord nbits w)

/-- `MARKER[k]` (R10). -/
def markerByte? (k : Nat) : Option Byte :=
  marker[k]?

end Sys2Proof.Machine
end

