-- ==== Sys2Proof/Machine/Flags.lean ====
section
/-! DEFINITION. The conditions the rules test: that the current line equals the marker (spec/40_marker_detector.md R58),
that a byte continues it (R59), that a payload byte is the last of its frame (spec/41_payload_unpacker.md R62), and the
output condition `out_have` (spec/10_state.md R27). -/

namespace Sys2Proof.Machine

open Sys2Proof.Config

/-- `mdead == 0 and mpos == MARKER_LEN-1`: with its `LF`, the current line equals `MARKER` (R58, R31). -/
def State.lineIsMarker (s : State) : Bool :=
  !s.mdead && s.mpos.toNat == markerLen - 1

/-- `mdead == 0 and mpos < MARKER_LEN-1 and b == MARKER[mpos]`: the line with `b` is still a prefix of `MARKER` (R59). -/
def State.continuesMarker (s : State) (b : Byte) : Bool :=
  !s.mdead && decide (s.mpos.toNat < markerLen - 1) && markerByte? s.mpos.toNat == some b

/-- `pcount == FRAME_BYTES-1`: the byte of this step is the last of the frame (R62). -/
def State.lastPayload (s : State) : Bool :=
  s.pcount.toNat == frameBytes - 1

/-- `out_have`: 1 exactly when `out_spec` holds a value (R27). -/
def State.outHave (s : State) : Bool :=
  s.outSpec.isSome

end Sys2Proof.Machine
end

