-- ==== Sys2Proof/Machine/Marker.lean ====
section
/-! DEFINITION. The marker detector (spec/40_marker_detector.md): IDLE, M_LF, M_CHR. The meanings do not test the mode
again: the decode word carries it (R49), so `step` runs M_LF and M_CHR in mode `M` only (assumption log 9). -/

namespace Sys2Proof.Machine

/-- IDLE (R57): `out_valid <- 0`, everything else unchanged. -/
def execIdle (_mode : Mode) (_inData : Byte) (s : State) : Answer State :=
  .next s.clearValid

/-- M_LF (R58): a line equal to `MARKER` moves to mode `P`. Any other line is discarded. -/
def execMLf (s : State) : Answer State :=
  if s.lineIsMarker then .next s.enterPayload.startLine.clearValid
  else .next s.startLine.clearValid

/-- M_CHR (R59): the line stays a prefix of `MARKER`, or is dead until its `LF`. -/
def execMChr (b : Byte) (s : State) : Answer State :=
  if s.continuesMarker b then .next s.extendLine.clearValid
  else .next s.killLine.clearValid

end Sys2Proof.Machine
end

