-- ==== Sys2Proof/Machine/Payload.lean ====
section
/-! DEFINITION. The payload unpacker (spec/41_payload_unpacker.md): the unpack function, its inverse, and P_BYTE. -/

namespace Sys2Proof.Machine

open Sys2Proof.Config

/-- `zext_16` of a byte (R15, R64): unsigned, never sign-extended. -/
def zext16 (b : Byte) : Sample := b.setWidth 16

/-- `(zext_16(hi) << 8) | zext_16(lo)`: one big-endian sample (R55, R63). -/
def joinBytes (hi lo : Byte) : Sample := (zext16 hi <<< 8) ||| zext16 lo

/-- `unpack` (R63): sample `i` from payload bytes `2*i` and `2*i+1`. -/
def unpack (f : Frame) : Spectrum :=
  Vector.ofFn fun i : Fin nSamples =>
    joinBytes (f[2 * i.val]'(by have := i.isLt; simp only [nSamples, frameBytes] at *; omega))
      (f[2 * i.val + 1]'(by have := i.isLt; simp only [nSamples, frameBytes] at *; omega))

/-- `pack` (R65 d): byte `2*i` is the high byte of sample `i`, byte `2*i+1` its low byte. -/
def pack (sp : Spectrum) : Frame :=
  Vector.ofFn fun k : Fin frameBytes =>
    have h : k.val / 2 < nSamples := by have := k.isLt; simp only [nSamples, frameBytes] at *; omega
    if k.val % 2 = 0 then sp[k.val / 2].extractLsb' 8 8 else sp[k.val / 2].extractLsb' 0 8

/-- P_BYTE (R62): capture the byte at `pcount`. On the last byte of the frame the buffer, the new byte included (R36), is
unpacked and emitted (R63, R66). On any other byte `pcount` counts on. -/
def execPByte (b : Byte) (s : State) : Answer State :=
  andThen (memWrite s.pcount.toNat b s.pbuf) fun m =>
    if s.lastPayload then
      andThen (readFrame m) fun f => .next ((s.setPbuf m).emit (unpack f))
    else
      .next (s.setPbuf m).countPayload.clearValid

end Sys2Proof.Machine
end

