-- ==== Sys2Proof/Machine/Reset.lean ====
section
/-! DEFINITION. RESET (spec/70_reset_and_hazards.md R91). -/

namespace Sys2Proof.Machine

/-- RESET (R91): every register takes its reset value of R33. The byte of the step is discarded (R83). -/
def execReset (_mode : Mode) (_inValid : Bool) (_inData : Byte) (s : State) : Answer State :=
  .next s.clear

end Sys2Proof.Machine
end

