-- ==== Sys2Proof/Machine/Dispatch.lean ====
section
/-! DEFINITION. One arm per operation, each one call of its meaning. -/

namespace Sys2Proof.Machine

def exec (i : Instr) (s : State) : Host.Outcome State Fault Refusal :=
  match i with
  | .reset mode inValid inData => Sys2Proof.Machine.execReset mode inValid inData s
  | .idle mode inData => Sys2Proof.Machine.execIdle mode inData s
  | .mLf => Sys2Proof.Machine.execMLf s
  | .mChr b => Sys2Proof.Machine.execMChr b s
  | .pByte b => Sys2Proof.Machine.execPByte b s

end Sys2Proof.Machine
end

