-- ==== Sys2Proof/Machine/Step.lean ====
section
/-! DEFINITION. One step: one rising edge of `clk` (spec/00_scope.md R16). -/

namespace Sys2Proof.Machine

/-- Form the decode word from the pins and the mode (R49), let the table select the operation (R50), consume the input
of the edge, and run the operation. -/
def step (s : State) : Host.Outcome State Fault Refusal :=
  match Sys2Proof.decodeWord s.decodeWord with
  | .ok i => exec i s.consumeInput
  | .error _ => .refused (.noOperation s.decodeWord)

/-- `s` with the operation whose decode word is `w` (bits above `nbits` zero) at its next edge: the pins of that edge
carry `W[10]`, `W[8]` and `W[7:0]`, and the mode register carries `W[9]`, since the decode word is formed from both
(R49, assumption log 3). -/
def State.withFetchWord (s : State) (nbits w : Nat) : State :=
  { s.present (fetchInput nbits w :: s.inputs) with mode := fetchMode nbits w }

end Sys2Proof.Machine
end

