-- ==== Sys2Proof/Machine/Stream.lean ====
section
/-! DEFINITION. Input sequences: the stream notation (spec/30_encoding.md R56), the bytes a sequence delivers
(spec/42_feed_and_output.md R69), and the lines of a byte sequence (spec/00_scope.md R17, spec/10_state.md R31). -/

namespace Sys2Proof.Machine

open Sys2Proof.Config

/-- A step that presents the byte `b` (R69). -/
def Input.byte (b : Byte) : Input := ⟨false, true, b⟩

/-- A step with no byte (R56 `IDLE`); `in_data` is ignored. -/
def Input.idle (d : Byte) : Input := ⟨false, false, d⟩

/-- A step with `rst = 1` (R56 `RST`); `in_valid` and `in_data` do not matter. -/
def Input.rstStep (v : Bool) (d : Byte) : Input := ⟨true, v, d⟩

/-- `[b0, b1, ...]` (R56). -/
def streamBytes (bs : List Byte) : List Input := bs.map Input.byte

/-- `"text"`: the ASCII bytes of the text (R56). -/
def streamText (text : String) : List Input :=
  streamBytes (text.toList.map fun c => BitVec.ofNat 8 c.toNat)

/-- `X*n` (R56). -/
def streamRepeat (n : Nat) (item : List Input) : List Input := (List.replicate n item).flatten

/-- `IDLE*n` (R56), and `|`, a boundary between two `feed` calls, for some `n` (R56, R71). -/
def streamIdle (n : Nat) : List Input := List.replicate n (Input.idle 0#8)

/-- `RST` (R56). -/
def streamRst : List Input := [Input.rstStep false 0#8]

/-- `PAYLOAD(f)`: the bytes `f(0), ..., f(575)` (R56). -/
def streamPayload (f : Nat → Byte) : List Input := streamBytes ((List.range frameBytes).map f)

/-- The pins deliver a byte to the SFS in this step: `rst = 0` and `in_valid = 1` (R28, R83). -/
def Input.delivers (i : Input) : Bool := !i.rst && i.inValid

/-- The bytes a sequence of inputs delivers, in arrival order. -/
def deliveredBytes (ins : List Input) : List Byte :=
  (ins.filter Input.delivers).map Input.inData

/-- No input of the sequence asserts `rst`: the steps of `feed` calls (R69). -/
abbrev NoReset (ins : List Input) : Prop := ∀ i ∈ ins, i.rst = false

/-- One byte more of the line-structured stream: an `LF` ends the current line (R17). -/
def lineAfter (line : List Byte) (b : Byte) : List Byte :=
  if b = lf then [] else line ++ [b]

/-- The current line of a byte sequence that began at the start of a line: the bytes after its last `LF` (R17, R31). -/
def currentLine (bs : List Byte) : List Byte :=
  bs.foldl lineAfter []

/-- The byte sequence ends with a complete line equal to `MARKER`: the marker stands at its very end, and at the start of
the sequence or just after an `LF` (R54, R60). -/
def EndsMarkerLine (bs : List Byte) : Prop :=
  ∃ before, bs = before ++ marker ∧ (before = [] ∨ before.getLast? = some lf)

end Sys2Proof.Machine
end

