-- ==== Sys2Proof/Machine/Source.lean ====
section
/-! DEFINITION. The source's own decoder, as far as the spec quotes it: `feed` over a transport that buffers the bytes
not yet consumed (spec/42_feed_and_output.md R69-R72, spec/40_marker_detector.md R57-R60, decision D4, conflict C3).
It is the reference that R7 and R71 compare the SFS with. It is no part of the machine. DEDUCED (assumption log 11). -/

namespace Sys2Proof.Machine

open Sys2Proof.Config

/-- The decoder's state and the bytes its transport holds for it. -/
structure Source where
  mode : Mode
  buffer : List Byte
deriving DecidableEq, Repr

/-- A fresh decoder: `AwaitingMarker`, nothing buffered. -/
def Source.start : Source := ⟨.M, []⟩

/-- `readLine()`: the first newline-terminated chunk, its `LF` included, and the bytes after it. -/
def readLine? : List Byte → Option (List Byte × List Byte)
  | [] => none
  | b :: rest =>
    if b = lf then some ([b], rest)
    else (readLine? rest).map fun p => (b :: p.1, p.2)

/-- One consumption: a complete line while awaiting the marker, compared whole with `MARKER`, or 576 bytes while awaiting
the payload, decoded and emitted. `none`: not enough bytes, no action. -/
def Source.consume? (d : Source) : Option (Source × Option Spectrum) :=
  match d.mode with
  | .M => (readLine? d.buffer).map fun p => (⟨if p.1 = marker then .P else .M, p.2⟩, none)
  | .P =>
    if h : frameBytes ≤ d.buffer.length then
      some (⟨.M, d.buffer.drop frameBytes⟩,
        some (unpack (Vector.ofFn fun k : Fin frameBytes => d.buffer[k.val]'(Nat.lt_of_lt_of_le k.isLt h))))
    else none

/-- Keep consuming until there is not enough. Every consumption takes at least one byte, so `n` at least the number of
buffered bytes is enough. -/
def Source.drain : (n : Nat) → Source → List Spectrum × Source
  | 0, d => ([], d)
  | n + 1, d =>
    match d.consume? with
    | none => ([], d)
    | some (d', e) =>
      let r := Source.drain n d'
      (e.toList ++ r.1, r.2)

/-- `feed(chunk)`: the transport has the chunk too, and the decoder consumes what it can. -/
def Source.feed (d : Source) (chunk : List Byte) : List Spectrum × Source :=
  Source.drain (d.buffer ++ chunk).length { d with buffer := d.buffer ++ chunk }

/-- A sequence of `feed` calls: all Spectra in emission order, and the decoder after the last call. -/
def Source.feedAll : Source → List (List Byte) → List Spectrum × Source
  | d, [] => ([], d)
  | d, c :: cs =>
    let r := d.feed c
    let r' := Source.feedAll r.2 cs
    (r.1 ++ r'.1, r'.2)

end Sys2Proof.Machine
end

