-- ==== Sys2Proof/Machine/Ports.lean ====
section
/-! DEFINITION. The output ports as the consumer reads them (spec/10_state.md R28, spec/42_feed_and_output.md R74).
A read has no side effect (R43), so these are functions of the state. `out_valid` and `out_have` are the register
`outValid` (R26) and `State.outHave` (R27). -/

namespace Sys2Proof.Machine

open Sys2Proof.Config

/-- The consumer copies `out_spec`. While `out_have = 0` there is no value to read: the model's fault (R80, D8). -/
def State.readOutSpec (s : State) : Answer Spectrum :=
  match s.outSpec with
  | some sp => .next sp
  | none => .fault (.noValue .outSpec)

/-- The Spectrum as a flat 4608-bit bus: bit `16*i+j` of the bus is bit `j` of sample `i` (R40; the layout is decision
D16's, assumption log 13). -/
def flattenSpectrum (sp : Spectrum) : BitVec 4608 :=
  BitVec.ofFnLE fun k : Fin 4608 =>
    have h : k.val / 16 < nSamples := by have := k.isLt; simp only [nSamples] at *; omega
    sp[k.val / 16].getLsbD (k.val % 16)

/-- The `out_spec` port in its flat form (R28, R40). -/
def State.readOutBus (s : State) : Answer (BitVec 4608) :=
  andThen s.readOutSpec fun sp => .next (flattenSpectrum sp)

end Sys2Proof.Machine
end

