-- ==== Sys2Proof/Machine/Observe.lean ====
section
/-! DEFINITION. The observation of a run (spec/42_feed_and_output.md R76): its emissions with their step numbers, and
its final state. An emission is seen on the ports, by the `out_valid` pulse of the state it leaves (R26, R81;
DEDUCED, assumption log 12). -/

namespace Sys2Proof.Machine

open Sys2Proof.Config

/-- One pair `(t, S)` of an observation (R76). -/
structure Emission where
  time : Nat
  spectrum : Spectrum
deriving DecidableEq, Repr

/-- What a run is observed to do (R76). -/
structure Observation where
  emissions : List Emission
  final : State
deriving DecidableEq, Repr

/-- The Spectrum that the step which led to `s` emitted, if it emitted one: the pulse says so, and the register holds
it. -/
def State.emitted (s : State) : Answer (Option Spectrum) :=
  if s.outValid then andThen s.readOutSpec fun sp => .next (some sp) else .next none

/-- Put an emission at step `t` before an observation. -/
def Observation.withStep (o : Observation) (t : Nat) : Option Spectrum → Observation
  | some sp => { o with emissions := ⟨t, sp⟩ :: o.emissions }
  | none => o

/-- `n` steps from `s`, the first of them step `t`. -/
def observeSteps : (n : Nat) → (t : Nat) → State → Answer Observation
  | 0, _, s => .next ⟨[], s⟩
  | n + 1, t, s =>
    andThen (step s) fun s' =>
      andThen s'.emitted fun e =>
        andThen (observeSteps n (t + 1) s') fun o => .next (o.withStep t e)

/-- The run that presents `ins` to `s`, one input per step, steps numbered from 0 (R76). -/
def observe (s : State) (ins : List Input) : Answer Observation :=
  observeSteps ins.length 0 (s.present ins)

/-- `feed(c)` (R69): the chunk's bytes, one per step. -/
def feed (s : State) (chunk : List Byte) : Answer Observation :=
  observe s (streamBytes chunk)

/-- The Spectra of a list of emissions, in order. -/
def spectraOf (es : List Emission) : List Spectrum := es.map Emission.spectrum

/-- Each emission with the number of bytes delivered up to and including its step (R71: the byte it happens on). -/
def emissionsByByte (ins : List Input) (es : List Emission) : List (Nat × Spectrum) :=
  es.map fun e => ((deliveredBytes (ins.take (e.time + 1))).length, e.spectrum)

end Sys2Proof.Machine
end

