-- ==== Sys2Proof/Safety.lean ====
section
/-! DEFINITION. What counts as a good state and a safe step, in the terms the statements use. -/

namespace Sys2Proof.Machine

open Sys2Proof.Config

/-- R30 (a): in mode `M` no payload byte is counted. -/
abbrev State.MarkerModeCountsNothing (s : State) : Prop := s.mode = .M → s.pcount = 0#10

/-- R30 (b): in mode `P` no line is in progress. -/
abbrev State.PayloadModeHasNoLine (s : State) : Prop := s.mode = .P → s.mpos = 0#3 ∧ s.mdead = false

/-- R30 (c), (d): the counters stay in their ranges. -/
abbrev State.CountersInRange (s : State) : Prop :=
  s.mpos.toNat ≤ markerLen - 1 ∧ s.pcount.toNat ≤ frameBytes - 1

/-- What R30 (e) says of one state: in mode `P` the entries below `pcount` hold bytes. -/
abbrev State.CapturedBytesHeld (s : State) : Prop :=
  s.mode = .P → ∀ a < s.pcount.toNat, (Memory.get? s.pbuf a).isSome

/-- R30 (f): a dead line counts nothing. -/
abbrev State.DeadLineCountsNothing (s : State) : Prop := s.mdead = true → s.mpos = 0#3

/-- R26, R66: while the pulse is up a Spectrum stands in `out_spec`, and the SFS is at the start of a line. -/
abbrev State.PulseFollowsEmission (s : State) : Prop :=
  s.outValid = true → s.outSpec.isSome ∧ s.mode = .M ∧ s.mpos = 0#3 ∧ s.mdead = false

/-- The invariant of the SFS: R30, the canonical form of `pbuf`, and what the `out_valid` pulse means. -/
abbrev State.Legal (s : State) : Prop :=
  s.MarkerModeCountsNothing ∧ s.PayloadModeHasNoLine ∧ s.CountersInRange ∧ s.CapturedBytesHeld ∧
    s.DeadLineCountsNothing ∧ s.PulseFollowsEmission ∧ Memory.wf s.pbuf

/-- The SFS awaits the first byte of a line (R17, R31). -/
abbrev State.AtLineStart (s : State) : Prop :=
  s.mode = .M ∧ s.mpos = 0#3 ∧ s.mdead = false ∧ s.pcount = 0#10

/-- The step goes on: it neither faults nor refuses. -/
abbrev State.StepGoesOn (s : State) : Prop := ∃ t, step s = .next t

/-- The step at `s` makes an emission: it presents the last payload byte of a frame, and no reset (R66, R83). -/
abbrev State.Emits (s : State) : Prop :=
  s.mode = .P ∧ s.nextInput.rst = false ∧ s.nextInput.inValid = true ∧ s.pcount.toNat = frameBytes - 1

/-- The registers other than `out_valid` and the coming inputs: what chunking may not change (R71). -/
abbrev State.SameButPulse (s t : State) : Prop :=
  s.mode = t.mode ∧ s.mpos = t.mpos ∧ s.mdead = t.mdead ∧ s.pcount = t.pcount ∧ s.pbuf = t.pbuf ∧
    s.outSpec = t.outSpec

end Sys2Proof.Machine
end

