-- ==== Sys2Proof/Certificates/Slice0/Obligations.lean ====
section
/-! DEFINITION. The statements for the provers. Each docstring names the rule of spec/ it rests on. Where a clause is the
model's own choice, the docstring names the assumption log's entry. -/

open Sys2Proof Sys2Proof.Machine Sys2Proof.Config

/-! ### The decode word and the operation table -/

/-- R49: the four fields of the decode word. -/
def Obligations.DecodeWordHasFourFields : Prop :=
  ∀ s : State,
    s.decodeWord.getLsbD 10 = s.nextInput.rst ∧
    s.decodeWord.getLsbD 9 = decide (s.mode = .P) ∧
    s.decodeWord.getLsbD 8 = s.nextInput.inValid ∧
    s.decodeWord.extractLsb' 0 8 = s.nextInput.inData

/-- Words that spec/95_test_vectors.md writes out, and what they stand for (R50). -/
def Obligations.SpecWordsDecode : Prop :=
  decodeWord 0x709#11 = .ok (.reset .P true 0x09#8) ∧
  decodeWord 0x400#11 = .ok (.reset .M false 0x00#8) ∧
  decodeWord 0x000#11 = .ok (.idle .M 0x00#8) ∧
  decodeWord 0x20A#11 = .ok (.idle .P 0x0A#8) ∧
  decodeWord 0x10A#11 = .ok .mLf ∧
  decodeWord 0x121#11 = .ok (.mChr 0x21#8) ∧
  decodeWord 0x1A1#11 = .ok (.mChr 0xA1#8) ∧
  decodeWord 0x301#11 = .ok (.pByte 0x01#8) ∧
  decodeWord 0x30A#11 = .ok (.pByte 0x0A#8)

/-- R50: the table's condition in words, for every decode word, and the one overlap of its rows. -/
def Obligations.OperationTableInWords : Prop :=
  (∀ w : DecodeWord, decodeWord w = .ok
    (if w.getLsbD 10 then .reset (wordMode w) (wordValid w) (wordData w)
     else if w.getLsbD 8 = false then .idle (wordMode w) (wordData w)
     else if w.getLsbD 9 then .pByte (wordData w)
     else if wordData w = 0x0A#8 then .mLf
     else .mChr (wordData w))) ∧
  (∀ w : DecodeWord, w ≠ 0x10A#11 → (opTable.filter fun r => r.selects w).length = 1) ∧
  ((opTable.filter fun r => r.selects 0x10A#11).map OpRow.op = [.mLf, .mChr])

/-- R51: the decode is total, and how many words each operation takes. -/
def Obligations.DecodeTotalWithCounts : Prop :=
  (∀ w : DecodeWord, ∃! op : Op, selectOp w = some op) ∧
  (List.range 2048).countP (fun n => selectOp (BitVec.ofNat 11 n) = some .reset) = 1024 ∧
  (List.range 2048).countP (fun n => selectOp (BitVec.ofNat 11 n) = some .idle) = 512 ∧
  (∀ b : Bool, (List.range 2048).countP (fun n =>
    selectOp (BitVec.ofNat 11 n) = some .idle ∧ (BitVec.ofNat 11 n).getLsbD 9 = b) = 256) ∧
  (List.range 2048).countP (fun n => selectOp (BitVec.ofNat 11 n) = some .mLf) = 1 ∧
  (List.range 2048).countP (fun n => selectOp (BitVec.ofNat 11 n) = some .mChr) = 255 ∧
  (List.range 2048).countP (fun n => selectOp (BitVec.ofNat 11 n) = some .pByte) = 256

/-- Decoding the encoding of a well-formed operation gives it back with every operand, as a word and as bytes before
any other bytes (R49, R50). Two clauses are the model's choice: the byte layout (assumption log 1), and that RESET and
IDLE have the fields they ignore as operands, which come back too (assumption log 8). -/
def Obligations.DecodeEncodeAgree : Prop :=
  ∀ i : Instr, i.wellFormed = true →
    decodeWord (encode i) = .ok i ∧
    ∀ rest : List Byte, decodeBytes (encodeBytes i ++ rest) = .ok (i, rest)

/-- Every decode word is the encoding of the one well-formed operation it decodes to. R50 and R51 say that every word
selects one operation. That no two words are one and the same well-formed operation with its operands, so that `encode`
gives the word back, is the model's choice: RESET and IDLE keep the fields they ignore (assumption log 8). -/
def Obligations.EncodeDecodeAgree : Prop :=
  ∀ w : DecodeWord, ∃ i : Instr, decodeWord w = .ok i ∧ i.wellFormed = true ∧ encode i = w ∧
    ∀ j : Instr, j.wellFormed = true → encode j = w → j = i

/-- The model's own reading of a table word (assumption logs 1 and 3): an operation's 16 table bits decode to it, and
placing them makes the next step run it. -/
def Obligations.PlacedWordRunsNext : Prop :=
  ∀ i : Instr, i.wellFormed = true →
    decodeTableWord 16 (encode i).toNat = some i ∧
    ∀ s : State, step (s.withFetchWord 16 (encode i).toNat) = exec i { s with mode := wordMode (encode i) }

/-- R8 to R13: the parameters meet the constraints the rules are written under. -/
def Obligations.ParametersMeetTheirConstraints : Prop :=
  nSamples = 288 ∧ frameBytes = 2 * nSamples ∧ marker.length = markerLen ∧ 1 ≤ markerLen ∧
    marker = [0x21#8, 0x73#8, 0x70#8, 0x65#8, 0x6B#8, 0x21#8, 0x0A#8] ∧
    marker[markerLen - 1]? = some lf ∧ ∀ k : Nat, k < markerLen - 1 → marker[k]? ≠ some lf

/-! ### A step -/

/-- A step runs the operation that the decode word selects, with the edge's input consumed (R49, R50). What the pins carry
when nothing is presented is the model's choice (assumption log 2). -/
def Obligations.StepRunsDecodedOperation : Prop :=
  (∀ (s : State) (i : Instr), decodeWord s.decodeWord = .ok i →
    step s = exec i { s with inputs := s.inputs.tail }) ∧
  (∀ s : State, ∃ i : Instr, i.wellFormed = true ∧ decodeWord s.decodeWord = .ok i) ∧
  (∀ (s : State) (i : Input) (rest : List Input), s.inputs = i :: rest → s.nextInput = i) ∧
  (∀ s : State, s.inputs = [] → s.nextInput = ⟨false, false, 0x00#8⟩)

/-- R83: reset first, idle second, a byte third, and then the mode selects. -/
def Obligations.StepFollowsPriority : Prop :=
  ∀ s : State,
    (s.nextInput.rst = true → step s = .next { State.reset with inputs := s.inputs.tail }) ∧
    (s.nextInput.rst = false → s.nextInput.inValid = false →
      step s = exec (.idle s.mode s.nextInput.inData) { s with inputs := s.inputs.tail }) ∧
    (s.nextInput.rst = false → s.nextInput.inValid = true → s.mode = .P →
      step s = exec (.pByte s.nextInput.inData) { s with inputs := s.inputs.tail }) ∧
    (s.nextInput.rst = false → s.nextInput.inValid = true → s.mode = .M → s.nextInput.inData = 0x0A#8 →
      step s = exec .mLf { s with inputs := s.inputs.tail }) ∧
    (s.nextInput.rst = false → s.nextInput.inValid = true → s.mode = .M → s.nextInput.inData ≠ 0x0A#8 →
      step s = exec (.mChr s.nextInput.inData) { s with inputs := s.inputs.tail }) ∧
    (∀ (t : Nat) (o : Observation), observeSteps 1 t s = .next o → o.emissions.length ≤ 1)

/-- R43, R46: a step consumes the input of its edge and no other. -/
def Obligations.StepConsumesOneInput : Prop :=
  ∀ s t : State, step s = .next t → t.inputs = s.inputs.tail

/-! ### RESET -/

/-- R91: RESET, from its encoding to its effect. It writes every register, whatever the mode, the byte and the state, and
RESET again changes nothing. -/
def Obligations.ResetWritesEveryRegister : Prop :=
  (∀ w : DecodeWord, w &&& 0x400#11 = 0x400#11 →
    decodeWord w = .ok (.reset (wordMode w) (wordValid w) (wordData w))) ∧
  (∀ (m : Mode) (v : Bool) (d : Byte) (s : State), ∃ t : State,
    exec (.reset m v d) s = .next t ∧
    t.mode = .M ∧ t.mpos = 0#3 ∧ t.mdead = false ∧ t.pcount = 0#10 ∧ t.outValid = false ∧
    t.outSpec = none ∧ t.outHave = false ∧ (∀ a : Nat, Memory.get? t.pbuf a = none) ∧
    t.inputs = s.inputs ∧
    ∀ (m' : Mode) (v' : Bool) (d' : Byte), exec (.reset m' v' d') t = .next t)

/-- R33: the reset state. -/
def Obligations.ResetStateValues : Prop :=
  State.reset.mode = .M ∧ State.reset.mpos = 0#3 ∧ State.reset.mdead = false ∧ State.reset.pcount = 0#10 ∧
  (∀ a : Nat, a ≤ 575 → memRead a State.reset.pbuf = .fault (.noValue (.pbuf a))) ∧
  State.reset.outSpec = none ∧ State.reset.outValid = false ∧ State.reset.outHave = false

/-- R91, corner cases: any number of consecutive RESET steps act as one. -/
def Obligations.ConsecutiveResetsActAsOne : Prop :=
  ∀ (s : State) (resets rest : List Input), resets ≠ [] → (∀ i ∈ resets, i.rst = true) →
    core.run resets.length (s.present (resets ++ rest)) = .next (State.reset.present rest)

/-- R92, R94: after a RESET step nothing of the state before it is left, so a run is the run from the reset state one step
later. -/
def Obligations.ResetForgetsTheStateBefore : Prop :=
  ∀ (s : State) (r : Input) (ins : List Input), r.rst = true →
    observe s (r :: ins) =
      andThen (observe State.reset ins) fun o =>
        .next ⟨o.emissions.map fun e => ⟨e.time + 1, e.spectrum⟩, o.final⟩

/-! ### The marker detector -/

/-- R57: IDLE, from its encoding to its effect. It clears the pulse and changes nothing else, in both modes and whatever
`in_data` is. -/
def Obligations.IdleClearsOnlyThePulse : Prop :=
  (∀ w : DecodeWord, w &&& 0x500#11 = 0x000#11 → decodeWord w = .ok (.idle (wordMode w) (wordData w))) ∧
  (∀ (m : Mode) (d : Byte) (s : State), exec (.idle m d) s = .next { s with outValid := false })

/-- R58: M_LF, from its encoding to its effect. It ends the line and moves to mode `P` exactly when the line equals
`MARKER`. -/
def Obligations.LfEndsTheLine : Prop :=
  decodeWord 0x10A#11 = .ok .mLf ∧
  ∀ s : State, exec .mLf s = .next { s with
    mode := if s.mdead = false ∧ s.mpos.toNat = 6 then .P else s.mode
    mpos := 0#3
    mdead := false
    outValid := false }

/-- R59: M_CHR, from its encoding to its effect. It extends a line that is still a prefix of `MARKER`, and kills any
other. -/
def Obligations.ChrExtendsOrKillsTheLine : Prop :=
  (∀ w : DecodeWord, w &&& 0x700#11 = 0x100#11 → w ≠ 0x10A#11 → decodeWord w = .ok (.mChr (wordData w))) ∧
  (∀ (b : Byte) (s : State), exec (.mChr b) s = .next
    (if s.mdead = false ∧ s.mpos.toNat < 6 ∧ [0x21#8, 0x73#8, 0x70#8, 0x65#8, 0x6B#8, 0x21#8][s.mpos.toNat]? = some b
     then { s with mpos := s.mpos + 1#3, outValid := false }
     else { s with mpos := 0#3, mdead := true, outValid := false })) ∧
  (∀ s : State, s.mpos.toNat < 6 → (s.mpos + 1#3).toNat = s.mpos.toNat + 1) ∧
  (∀ (b : Byte) (s : State), 0x80#8 ≤ b →
    exec (.mChr b) s = .next { s with mpos := 0#3, mdead := true, outValid := false })

/-- R31: the line invariant. After any inputs without a reset that complete no marker line, from the start of a line in
mode `M`, `mpos` and `mdead` describe the current line. -/
def Obligations.LineRegistersDescribeTheLine : Prop :=
  ∀ (s : State) (ins : List Input), s.mode = .M → s.mpos = 0#3 → s.mdead = false → NoReset ins →
    (∀ p : List Byte, p <+: deliveredBytes ins → ¬ EndsMarkerLine p) →
    ∃ o : Observation, observe s ins = .next o ∧ o.final.mode = .M ∧
      ∀ k : Nat, (o.final.mdead = false ∧ o.final.mpos.toNat = k) ↔
        ((currentLine (deliveredBytes ins)).length = k ∧ k ≤ 6 ∧
          currentLine (deliveredBytes ins) = marker.take k)

/-- R60: mode `P` is entered at exactly the first `LF` that completes a line equal to `MARKER`. -/
def Obligations.FirstMarkerLineEntersPayload : Prop :=
  ∀ (s : State) (ins : List Input), s.mode = .M → s.mpos = 0#3 → s.mdead = false → NoReset ins →
    (∀ p : List Byte, p <+: deliveredBytes ins → p ≠ deliveredBytes ins → ¬ EndsMarkerLine p) →
    ∃ o : Observation, observe s ins = .next o ∧
      (o.final.mode = .P ↔ EndsMarkerLine (deliveredBytes ins))

/-- R61: no byte received in mode `M` reaches `pbuf`, `out_spec` or any output. -/
def Obligations.MarkerModeKeepsOutputs : Prop :=
  ∀ s t : State, s.mode = .M → s.nextInput.rst = false → step s = .next t →
    t.pbuf = s.pbuf ∧ t.outSpec = s.outSpec ∧ t.outHave = s.outHave ∧ t.outValid = false

/-- R84, R58: the only step from mode `M` to mode `P` is the `LF` that completes a marker line. -/
def Obligations.PayloadModeEnteredOnlyByMarker : Prop :=
  ∀ s t : State, s.mode = .M → step s = .next t →
    (t.mode = .P ↔ s.nextInput.rst = false ∧ s.nextInput.inValid = true ∧ s.nextInput.inData = 0x0A#8 ∧
      s.mdead = false ∧ s.mpos.toNat = 6)

/-! ### The payload buffer -/

/-- R35, R36: a byte written is the byte read, at that address alone. An access outside `0..575` stops (R35: it does not
exist; that the stop is a refusal is the model's choice, assumption log 6). -/
def Obligations.WrittenByteIsRead : Prop :=
  (∀ (a : Nat) (v : Byte) (m : Memory), a ≤ 575 → ∃ m' : Memory, memWrite a v m = .next m' ∧
    memRead a m' = .next v ∧ ∀ c : Nat, c ≠ a → memRead c m' = memRead c m) ∧
  (∀ (a : Nat) (v : Byte) (m : Memory), 575 < a →
    memWrite a v m = .refused (.noSuchAddress a) ∧ memRead a m = .refused (.noSuchAddress a))

/-- R37, R80: reading an entry that was never written faults, and no step from a legal state does it. -/
def Obligations.UnwrittenEntryIsNeverRead : Prop :=
  (∀ (a : Nat) (m : Memory), a ≤ 575 → Memory.get? m a = none → memRead a m = .fault (.noValue (.pbuf a))) ∧
  (∀ s : State, s.Legal → ∀ f : Fault, step s ≠ .fault f)

/-- R34: outside a reset, the one entry a step can change is the one P_BYTE writes. -/
def Obligations.OnlyPByteWritesTheBuffer : Prop :=
  ∀ (s t : State) (a : Nat), step s = .next t → s.nextInput.rst = false →
    Memory.get? t.pbuf a ≠ Memory.get? s.pbuf a →
    s.mode = .P ∧ s.nextInput.inValid = true ∧ a = s.pcount.toNat ∧
      Memory.get? t.pbuf a = some s.nextInput.inData

/-! ### The payload unpacker -/

/-- R62, the encoding, and any byte but the last: the byte is captured at `pcount`, `pcount` counts on, nothing else
changes but the pulse. -/
def Obligations.PayloadByteIsCaptured : Prop :=
  (∀ w : DecodeWord, w &&& 0x700#11 = 0x300#11 → decodeWord w = .ok (.pByte (wordData w))) ∧
  ∀ (b : Byte) (s : State), s.pcount.toNat < 575 → ∃ t : State,
    exec (.pByte b) s = .next t ∧
    t.pcount.toNat = s.pcount.toNat + 1 ∧ t.outValid = false ∧
    Memory.get? t.pbuf s.pcount.toNat = some b ∧
    (∀ a : Nat, a ≠ s.pcount.toNat → Memory.get? t.pbuf a = Memory.get? s.pbuf a) ∧
    t.mode = s.mode ∧ t.mpos = s.mpos ∧ t.mdead = s.mdead ∧ t.outSpec = s.outSpec ∧ t.inputs = s.inputs

/-- R62, R63, R66, the last byte: the whole frame, the new byte included, is unpacked and emitted. -/
def Obligations.LastPayloadByteEmits : Prop :=
  ∀ (b : Byte) (s : State) (f : Frame), s.pcount.toNat = 575 →
    (∀ k : Nat, k < 575 → Memory.get? s.pbuf k = f[k]?) → f[575]? = some b → ∃ t : State,
    exec (.pByte b) s = .next t ∧
    t.outSpec = some (unpack f) ∧ t.outValid = true ∧ t.mode = .M ∧ t.pcount = 0#10 ∧
    Memory.get? t.pbuf 575 = some b ∧
    (∀ a : Nat, a ≠ 575 → Memory.get? t.pbuf a = Memory.get? s.pbuf a) ∧
    t.mpos = s.mpos ∧ t.mdead = s.mdead ∧ t.inputs = s.inputs

/-- Where P_BYTE stops, in states that no run reaches (R30): at a `pcount` above 575 (the model's choice, assumption log
6), and at an emission over a buffer with an entry that was never written (R37, R80). -/
def Obligations.PayloadByteStopsOutsideLegalStates : Prop :=
  (∀ (b : Byte) (s : State), 575 < s.pcount.toNat →
    exec (.pByte b) s = .refused (.noSuchAddress s.pcount.toNat)) ∧
  (∀ (b : Byte) (s : State) (k : Nat), s.pcount.toNat = 575 → k < 575 → Memory.get? s.pbuf k = none →
    (∀ j : Nat, j < k → (Memory.get? s.pbuf j).isSome = true) →
    exec (.pByte b) s = .fault (.noValue (.pbuf k)))

/-- R55: the layout of a sample. -/
def Obligations.SampleIsBigEndianUnsigned : Prop :=
  ∀ (f : Frame) (i : Fin 288),
    (unpack f)[i.val] =
      ((f[2 * i.val]'(by have := i.isLt; simp only [frameBytes]; omega)).setWidth 16 <<< 8) |||
        (f[2 * i.val + 1]'(by have := i.isLt; simp only [frameBytes]; omega)).setWidth 16 ∧
    ((unpack f)[i.val]).extractLsb' 8 8 = f[2 * i.val]'(by have := i.isLt; simp only [frameBytes]; omega) ∧
    ((unpack f)[i.val]).extractLsb' 0 8 = f[2 * i.val + 1]'(by have := i.isLt; simp only [frameBytes]; omega)

/-- R65: the laws of the unpack, (a) to (e). -/
def Obligations.UnpackLaws : Prop :=
  (∀ hi lo : Byte, (joinBytes hi lo).toNat ≤ 65535 ∧ (zext16 hi <<< 8).toNat ≤ 0xFF00 ∧
    (zext16 lo).toNat ≤ 0x00FF ∧ (zext16 hi <<< 8) &&& zext16 lo = 0#16) ∧
  (∀ (f : Frame) (i : Fin 288), (unpack f)[i.val].toNat =
    256 * (f[2 * i.val]'(by have := i.isLt; simp only [frameBytes]; omega)).toNat +
      (f[2 * i.val + 1]'(by have := i.isLt; simp only [frameBytes]; omega)).toNat) ∧
  ((joinBytes 0x00#8 0x00#8).toNat = 0 ∧ (joinBytes 0xFF#8 0xFF#8).toNat = 65535 ∧
    (joinBytes 0x80#8 0x00#8).toNat = 32768 ∧ (joinBytes 0x7F#8 0xFF#8).toNat = 32767) ∧
  ((∀ sp : Spectrum, unpack (pack sp) = sp) ∧ (∀ f : Frame, pack (unpack f) = f)) ∧
  Function.Bijective unpack

/-- R40: the flat layout of the `out_spec` port. -/
def Obligations.FlatBusHoldsSampleAtItsLane : Prop :=
  ∀ (s : State) (sp : Spectrum), s.outSpec = some sp → ∃ bus : BitVec 4608, s.readOutBus = .next bus ∧
    ∀ i : Fin 288, bus.extractLsb' (16 * i.val) 16 = sp[i.val]

/-- R67: in mode `P` the value of a byte has no effect on framing. -/
def Obligations.PayloadValueDoesNotFrame : Prop :=
  ∀ (s t : State) (b b' : Byte), s.mode = .P → exec (.pByte b) s = .next t → ∃ t' : State,
    exec (.pByte b') s = .next t' ∧ t'.mode = t.mode ∧ t'.pcount = t.pcount ∧ t'.mpos = t.mpos ∧
      t'.mdead = t.mdead ∧ t'.outValid = t.outValid

/-- R68: mode `P` is left only by the step that receives payload byte 575 or by a reset, and a stalled sender leaves the
SFS parked in it, however many steps pass. -/
def Obligations.PayloadModeLeftOnlyByEmissionOrReset : Prop :=
  (∀ s t : State, s.mode = .P → step s = .next t → (t.mode = .M ↔ s.nextInput.rst = true ∨ s.Emits)) ∧
  (∀ (s : State) (ins : List Input), s.mode = .P → NoReset ins → deliveredBytes ins = [] →
    ∃ o : Observation, observe s ins = .next o ∧ o.emissions = [] ∧ s.SameButPulse o.final)

/-- R30 (e), R98: payload bytes land in the buffer in arrival order, idle steps anywhere between them, and as long as fewer
than 576 have come nothing is emitted. -/
def Obligations.PayloadLandsInArrivalOrder : Prop :=
  ∀ (s : State) (ins : List Input), s.mode = .P → NoReset ins →
    s.pcount.toNat + (deliveredBytes ins).length ≤ 575 →
    ∃ o : Observation, observe s ins = .next o ∧ o.emissions = [] ∧ o.final.mode = .P ∧
      o.final.pcount.toNat = s.pcount.toNat + (deliveredBytes ins).length ∧
      (∀ j : Nat, j < (deliveredBytes ins).length →
        Memory.get? o.final.pbuf (s.pcount.toNat + j) = (deliveredBytes ins)[j]?) ∧
      (∀ a : Nat, a < s.pcount.toNat → Memory.get? o.final.pbuf a = Memory.get? s.pbuf a) ∧
      o.final.outSpec = s.outSpec

/-! ### The output -/

/-- R26: `out_valid` is 1 for exactly the one step after a step that made an emission. -/
def Obligations.PulseExactlyAfterEmission : Prop :=
  State.reset.outValid = false ∧ ∀ s t : State, step s = .next t → (t.outValid = true ↔ s.Emits)

/-- R25: `out_spec` is written only by an emission and by a reset, and an emission writes the unpack of the whole frame in
`pbuf`. -/
def Obligations.OutSpecWrittenOnlyByEmissionOrReset : Prop :=
  State.reset.outSpec = none ∧
  ∀ s t : State, step s = .next t →
    (s.nextInput.rst = true → t.outSpec = none) ∧
    (s.Emits → ∃ f : Frame, readFrame t.pbuf = .next f ∧ t.outSpec = some (unpack f)) ∧
    (s.nextInput.rst = false → ¬ s.Emits → t.outSpec = s.outSpec)

/-- R27, R80: `out_have` is 1 exactly when the consumer's read of `out_spec` gives a value. While it is 0 the read is the
model's fault. -/
def Obligations.OutHaveSaysReadable : Prop :=
  (∀ (s : State) (sp : Spectrum), s.outSpec = some sp → s.outHave = true ∧ s.readOutSpec = .next sp) ∧
  (∀ s : State, s.outSpec = none → s.outHave = false ∧ s.readOutSpec = .fault (.noValue .outSpec) ∧
    s.readOutBus = .fault (.noValue .outSpec)) ∧
  State.reset.outHave = false

/-! ### The invariant, and that the SFS never stops -/

/-- R30 and the canonical form of the buffer: every step keeps the legal states. -/
def Obligations.StepKeepsLegal : Prop :=
  ∀ s t : State, s.Legal → step s = .next t → t.Legal

/-- The reset state is legal, whatever inputs come (R30, R33). -/
def Obligations.ResetIsLegal : Prop :=
  ∀ ins : List Input, (State.reset.present ins).Legal

/-- Every step from a legal state goes on, and where it makes an emission or is a reset, the next byte starts a line (R66,
R91, R100). -/
def Obligations.LegalStepGoesOn : Prop :=
  ∀ s : State, s.Legal → ∃ t : State, step s = .next t ∧
    (s.Emits ∨ s.nextInput.rst = true → t.AtLineStart)

/-- R78, R77: no input sequence stops the SFS. Every run from a legal state is observed to its end. -/
def Obligations.NoInputIsAnError : Prop :=
  ∀ (s : State) (ins : List Input), s.Legal → ∃ o : Observation, observe s ins = .next o ∧ o.final.Legal ∧
    o.final.inputs = [] ∧ ∀ e ∈ o.emissions, e.time < ins.length

/-! ### Whole streams -/

/-- X1, X4, X5: a marker line and a frame, idle steps anywhere, make exactly one emission, of the frame's unpack, in the
step of the last byte (R58, R62, R66, R71). -/
def Obligations.MarkerAndFrameEmitOnce : Prop :=
  ∀ (s : State) (ins : List Input) (f : Frame), s.AtLineStart → NoReset ins →
    deliveredBytes ins = marker ++ f.toList →
    ∃ (o : Observation) (t : Nat), observe s ins = .next o ∧ o.emissions = [⟨t, unpack f⟩] ∧
      (deliveredBytes (ins.take t)).length = 582 ∧ (deliveredBytes (ins.take (t + 1))).length = 583 ∧
      o.final.AtLineStart ∧ o.final.outSpec = some (unpack f)

/-- R46, R70, X6: frames, each after a marker line and any other lines before it, are emitted in arrival order, each in a
step of its own. -/
def Obligations.FramesEmittedInArrivalOrder : Prop :=
  ∀ (s : State) (ins : List Input) (session : List (List (List Byte) × Frame)), s.AtLineStart → NoReset ins →
    (∀ p ∈ session, ∀ line ∈ p.1, line ≠ marker ∧ ∃ body : List Byte, line = body ++ [lf] ∧ lf ∉ body) →
    deliveredBytes ins = session.flatMap (fun p => p.1.flatten ++ marker ++ p.2.toList) →
    ∃ o : Observation, observe s ins = .next o ∧
      spectraOf o.emissions = session.map (fun p => unpack p.2) ∧
      o.emissions.Pairwise (fun e e' => e.time < e'.time) ∧ o.final.AtLineStart

/-- R97: after a marker line the next 576 bytes are the frame, whatever the sender meant them to be. The emission is in the
step that delivers the last of them. -/
def Obligations.NextBytesAreTheFrame : Prop :=
  ∀ (s : State) (ins : List Input) (bs : List Byte) (h : 576 ≤ bs.length), s.AtLineStart → NoReset ins →
    deliveredBytes ins = marker ++ bs →
    ∃ (o : Observation) (e : Emission) (es : List Emission), observe s ins = .next o ∧ o.emissions = e :: es ∧
      e.spectrum = unpack (Vector.ofFn fun k : Fin frameBytes => bs[k.val]'(Nat.lt_of_lt_of_le k.isLt h)) ∧
      (deliveredBytes (ins.take e.time)).length = 582 ∧ (deliveredBytes (ins.take (e.time + 1))).length = 583

/-- R96: false lock. In mode `M`, in the middle of any line that is not the marker's, an `LF`, the bytes of `MARKER` and 576
more bytes make one emission, of those 576 bytes, in the step that delivers the last of them. -/
def Obligations.FalseLockEmits : Prop :=
  ∀ (s : State) (ins : List Input) (f : Frame), s.mode = .M → s.pcount = 0#10 → s.lineIsMarker = false →
    NoReset ins → deliveredBytes ins = lf :: (marker ++ f.toList) →
    ∃ (o : Observation) (t : Nat), observe s ins = .next o ∧ o.emissions = [⟨t, unpack f⟩] ∧
      (deliveredBytes (ins.take t)).length = 583 ∧ (deliveredBytes (ins.take (t + 1))).length = 584 ∧
      o.final.AtLineStart

/-- R95, R93: from the start of a line, fewer than 583 bytes make no emission and leave `out_spec` unchanged. A reset and
an emission leave the SFS at the start of a line (`Obligations.LegalStepGoesOn`). -/
def Obligations.FewerThan583BytesFromLineStartEmitNothing : Prop :=
  ∀ (s : State) (ins : List Input), s.AtLineStart → NoReset ins → (deliveredBytes ins).length < 583 →
    ∃ o : Observation, observe s ins = .next o ∧ o.emissions = [] ∧ o.final.outSpec = s.outSpec

/-- R71: two input sequences that deliver the same bytes reach the same registers but for the pulse, and make the same
emissions on the same bytes. -/
def Obligations.ChunkingDoesNotMatter : Prop :=
  ∀ (s : State) (ins ins' : List Input), s.Legal → NoReset ins → NoReset ins' →
    deliveredBytes ins = deliveredBytes ins' →
    ∃ o o' : Observation, observe s ins = .next o ∧ observe s ins' = .next o' ∧
      o.final.SameButPulse o'.final ∧ o.final.inputs = o'.final.inputs ∧
      emissionsByByte ins o.emissions = emissionsByByte ins' o'.emissions

/-- R7, R71: for every chunking of a byte stream and every run that delivers the stream, the SFS emits what the source's
`feed` emits, and ends in the same mode. The reference decoder is read from the spec's quotes (assumption log 11). -/
def Obligations.EmitsWhatTheSourceEmits : Prop :=
  ∀ (chunks : List (List Byte)) (ins : List Input), NoReset ins → deliveredBytes ins = chunks.flatten →
    ∃ o : Observation, observe State.reset ins = .next o ∧
      spectraOf o.emissions = (Source.start.feedAll chunks).1 ∧
      o.final.mode = (Source.start.feedAll chunks).2.mode
end

