-- ==== Sys2Proof/Laws/Memory.lean ====
section
/-! SUPPORT. The payload buffer: what a write leaves to be read, that every write keeps the canonical form, and what each
partial operation can answer. -/

namespace Sys2Proof.Machine

open Sys2Proof.Config

/-! ### Going on after a partial operation -/

@[simp] theorem andThen_next {α β : Type} (a : α) (f : α → Answer β) : andThen (.next a) f = f a := rfl

@[simp] theorem andThen_fault {α β : Type} (r : Fault) (f : α → Answer β) :
    andThen (.fault r) f = .fault r := rfl

@[simp] theorem andThen_refused {α β : Type} (r : Refusal) (f : α → Answer β) :
    andThen (.refused r) f = .refused r := rfl

/-- A sequence of two operations answers a value exactly when both do. -/
theorem andThen_eq_next {α β : Type} {x : Answer α} {f : α → Answer β} {b : β} :
    andThen x f = .next b ↔ ∃ a, x = .next a ∧ f a = .next b := by
  cases x <;> simp

/-! ### Entries -/

@[simp] theorem Memory.get?_nil (a : Nat) : Memory.get? [] a = none := rfl

/-- An entry of a buffer with a first entry. -/
theorem Memory.get?_cons (a b : Nat) (w : Byte) (m : Memory) :
    Memory.get? ((b, w) :: m) a = if a = b then some w else Memory.get? m a := by
  unfold Memory.get?
  rw [List.lookup_cons]
  by_cases h : a = b
  · simp [h]
  · simp [h, beq_eq_false_iff_ne.mpr h]

/-- What a write leaves to be read, at every address, in a buffer of any form. -/
theorem Memory.get?_put (a c : Nat) (v : Byte) (m : Memory) :
    Memory.get? (Memory.put a v m) c = if c = a then some v else Memory.get? m c := by
  induction m with
  | nil => simp [Memory.put, Memory.get?_cons]
  | cons e rest ih =>
    obtain ⟨b, w⟩ := e
    simp only [Memory.put]
    split
    · rw [Memory.get?_cons]
    · split
      · subst_vars
        simp only [Memory.get?_cons]
        split <;> rfl
      · simp only [Memory.get?_cons, ih]
        split
        · subst_vars
          rw [if_neg (by omega)]
        · rfl

@[simp] theorem Memory.get?_put_same (a : Nat) (v : Byte) (m : Memory) :
    Memory.get? (Memory.put a v m) a = some v := by
  rw [Memory.get?_put, if_pos rfl]

theorem Memory.get?_put_other {a c : Nat} (v : Byte) (m : Memory) (h : c ≠ a) :
    Memory.get? (Memory.put a v m) c = Memory.get? m c := by
  rw [Memory.get?_put, if_neg h]

/-! ### The canonical form -/

theorem Memory.wf_nil : Memory.wf [] := by simp [Memory.wf]

/-- A write lists no address but its own and those listed before. -/
theorem Memory.mem_put {a : Nat} {v : Byte} {m : Memory} {c : Host.Cell} (h : c ∈ Memory.put a v m) :
    c = (a, v) ∨ c ∈ m := by
  induction m with
  | nil => exact .inl (by simpa [Memory.put] using h)
  | cons e rest ih =>
    obtain ⟨b, w⟩ := e
    simp only [Memory.put] at h
    split at h
    · simpa using h
    · split at h
      · rcases List.mem_cons.mp h with rfl | h
        · exact .inl rfl
        · exact .inr (List.mem_cons_of_mem _ h)
      · rcases List.mem_cons.mp h with rfl | h
        · exact .inr List.mem_cons_self
        · exact (ih h).imp id (List.mem_cons_of_mem _)

/-- A write keeps the addresses strictly rising. -/
theorem Memory.put_sorted {a : Nat} {v : Byte} {m : Memory} (h : m.Pairwise (fun c d => c.1 < d.1)) :
    (Memory.put a v m).Pairwise (fun c d => c.1 < d.1) := by
  induction m with
  | nil => simp [Memory.put]
  | cons e rest ih =>
    obtain ⟨b, w⟩ := e
    obtain ⟨hb, hr⟩ := List.pairwise_cons.mp h
    simp only [Memory.put]
    split
    · rename_i hab
      refine List.pairwise_cons.mpr ⟨fun d hd => ?_, h⟩
      rcases List.mem_cons.mp hd with rfl | hd
      · exact hab
      · exact Nat.lt_trans hab (hb d hd)
    · split
      · rename_i hab
        subst hab
        exact List.pairwise_cons.mpr ⟨hb, hr⟩
      · refine List.pairwise_cons.mpr ⟨fun d hd => ?_, ih hr⟩
        rcases Memory.mem_put hd with rfl | hd
        · simp only
          omega
        · exact hb d hd

/-- A write at an address of the buffer keeps the canonical form. -/
theorem Memory.put_wf {a : Nat} {v : Byte} {m : Memory} (ha : a < frameBytes) (h : Memory.wf m) :
    Memory.wf (Memory.put a v m) :=
  ⟨Memory.put_sorted h.1, fun c hc => (Memory.mem_put hc).elim (fun e => e ▸ ha) (h.2 c)⟩

/-! ### MemWrite and MemRead -/

/-- Everything `memWrite` can answer with a value. -/
theorem memWrite_eq_next {a : Nat} {v : Byte} {m m' : Memory} :
    memWrite a v m = .next m' ↔ a < frameBytes ∧ m' = Memory.put a v m := by
  unfold memWrite
  split
  · rename_i h
    simp only [Host.Outcome.next.injEq, h, true_and]
    exact eq_comm
  · rename_i h
    simp [h]

/-- `memWrite` keeps the canonical form. -/
theorem memWrite_wf {a : Nat} {v : Byte} {m m' : Memory} (hw : memWrite a v m = .next m') (h : Memory.wf m) :
    Memory.wf m' := by
  obtain ⟨ha, rfl⟩ := memWrite_eq_next.mp hw
  exact Memory.put_wf ha h

/-- Everything `memRead` can answer with a value. -/
theorem memRead_eq_next {a : Nat} {v : Byte} {m : Memory} :
    memRead a m = .next v ↔ a < frameBytes ∧ Memory.get? m a = some v := by
  unfold memRead
  split
  · rename_i h
    cases hm : Memory.get? m a <;> simp [h]
  · rename_i h
    simp [h]

/-! ### Reading the frame -/

/-- `readBytes` answers the bytes of the entries it reads, and answers a value exactly when they all hold one. -/
theorem readBytes_eq_next {m : Memory} {n : Nat} {bs : Vector Byte n} :
    readBytes m n = .next bs ↔ ∀ k < n, k < frameBytes ∧ Memory.get? m k = bs[k]? := by
  induction n with
  | zero =>
    have hb : bs = #v[] := by ext i hi; omega
    subst hb
    simp [readBytes]
  | succ n ih =>
    simp only [readBytes, andThen_eq_next, ih, memRead_eq_next]
    constructor
    · rintro ⟨cs, hcs, b, ⟨hn, hb⟩, he⟩ k hk
      obtain rfl : cs.push b = bs := by simpa using he
      by_cases hkn : k = n
      · subst hkn
        exact ⟨hn, by rw [hb]; simp⟩
      · have hk' : k < n := by omega
        obtain ⟨h1, h2⟩ := hcs k hk'
        exact ⟨h1, by rw [h2, Vector.getElem?_push, if_neg hkn]⟩
    · intro h
      refine ⟨bs.pop, fun k hk => ?_, bs[n], ?_, ?_⟩
      · obtain ⟨h1, h2⟩ := h k (by omega)
        refine ⟨h1, ?_⟩
        rw [h2, Vector.getElem?_eq_getElem (by omega), Vector.getElem?_eq_getElem (by omega)]
        simp
      · obtain ⟨h1, h2⟩ := h n (by omega)
        exact ⟨h1, by rw [h2, Vector.getElem?_eq_getElem (by omega)]⟩
      · congr 1
        refine Vector.ext fun i hi => ?_
        simp only [Vector.getElem_push]
        split
        · simp
        · have : i = n := by omega
          subst this
          rfl

/-- `readFrame` answers the frame that stands in the buffer, and answers one exactly when every entry holds a byte. -/
theorem readFrame_eq_next {m : Memory} {f : Frame} :
    readFrame m = .next f ↔ ∀ k < frameBytes, Memory.get? m k = f[k]? := by
  unfold readFrame
  rw [readBytes_eq_next]
  exact ⟨fun h k hk => (h k hk).2, fun h k hk => ⟨hk, h k hk⟩⟩

/-- The first entry without a value is where reading the frame faults. -/
theorem readBytes_fault {m : Memory} {n k : Nat} (hk : k < n) (hkf : k < frameBytes) (hn : Memory.get? m k = none)
    (hb : ∀ j < k, (Memory.get? m j).isSome = true) : readBytes m n = .fault (.noValue (.pbuf k)) := by
  have before : ∃ bs : Vector Byte k, readBytes m k = .next bs := by
    refine ⟨Vector.ofFn fun j : Fin k => (Memory.get? m j.val).get (hb j.val j.isLt), ?_⟩
    rw [readBytes_eq_next]
    intro j hj
    exact ⟨by omega, by simp [hj]⟩
  obtain ⟨bs, hbs⟩ := before
  have at_k : readBytes m (k + 1) = .fault (.noValue (.pbuf k)) := by
    simp [readBytes, hbs, memRead, hkf, hn]
  clear hbs hb
  induction n with
  | zero => omega
  | succ n ih =>
    by_cases h : k = n
    · subst h
      exact at_k
    · simp [readBytes, ih (by omega)]

end Sys2Proof.Machine
end

