-- ==== Sys2Proof/Laws/State.lean ====
section
/-! SUPPORT. One lemma per field per named update of the state, each true by unfolding, so that no later proof unfolds a
record update. -/

namespace Sys2Proof.Machine

open Sys2Proof.Config

/-! ### `State.clearValid` -/

@[simp] theorem State.clearValid_mode (s : State) : s.clearValid.mode = s.mode := rfl
@[simp] theorem State.clearValid_mpos (s : State) : s.clearValid.mpos = s.mpos := rfl
@[simp] theorem State.clearValid_mdead (s : State) : s.clearValid.mdead = s.mdead := rfl
@[simp] theorem State.clearValid_pcount (s : State) : s.clearValid.pcount = s.pcount := rfl
@[simp] theorem State.clearValid_pbuf (s : State) : s.clearValid.pbuf = s.pbuf := rfl
@[simp] theorem State.clearValid_outSpec (s : State) : s.clearValid.outSpec = s.outSpec := rfl
@[simp] theorem State.clearValid_outValid (s : State) : s.clearValid.outValid = false := rfl
@[simp] theorem State.clearValid_inputs (s : State) : s.clearValid.inputs = s.inputs := rfl

/-! ### `State.enterPayload` -/

@[simp] theorem State.enterPayload_mode (s : State) : s.enterPayload.mode = .P := rfl
@[simp] theorem State.enterPayload_mpos (s : State) : s.enterPayload.mpos = s.mpos := rfl
@[simp] theorem State.enterPayload_mdead (s : State) : s.enterPayload.mdead = s.mdead := rfl
@[simp] theorem State.enterPayload_pcount (s : State) : s.enterPayload.pcount = s.pcount := rfl
@[simp] theorem State.enterPayload_pbuf (s : State) : s.enterPayload.pbuf = s.pbuf := rfl
@[simp] theorem State.enterPayload_outSpec (s : State) : s.enterPayload.outSpec = s.outSpec := rfl
@[simp] theorem State.enterPayload_outValid (s : State) : s.enterPayload.outValid = s.outValid := rfl
@[simp] theorem State.enterPayload_inputs (s : State) : s.enterPayload.inputs = s.inputs := rfl

/-! ### `State.startLine` -/

@[simp] theorem State.startLine_mode (s : State) : s.startLine.mode = s.mode := rfl
@[simp] theorem State.startLine_mpos (s : State) : s.startLine.mpos = 0#3 := rfl
@[simp] theorem State.startLine_mdead (s : State) : s.startLine.mdead = false := rfl
@[simp] theorem State.startLine_pcount (s : State) : s.startLine.pcount = s.pcount := rfl
@[simp] theorem State.startLine_pbuf (s : State) : s.startLine.pbuf = s.pbuf := rfl
@[simp] theorem State.startLine_outSpec (s : State) : s.startLine.outSpec = s.outSpec := rfl
@[simp] theorem State.startLine_outValid (s : State) : s.startLine.outValid = s.outValid := rfl
@[simp] theorem State.startLine_inputs (s : State) : s.startLine.inputs = s.inputs := rfl

/-! ### `State.extendLine` -/

@[simp] theorem State.extendLine_mode (s : State) : s.extendLine.mode = s.mode := rfl
@[simp] theorem State.extendLine_mpos (s : State) : s.extendLine.mpos = s.mpos + 1#3 := rfl
@[simp] theorem State.extendLine_mdead (s : State) : s.extendLine.mdead = s.mdead := rfl
@[simp] theorem State.extendLine_pcount (s : State) : s.extendLine.pcount = s.pcount := rfl
@[simp] theorem State.extendLine_pbuf (s : State) : s.extendLine.pbuf = s.pbuf := rfl
@[simp] theorem State.extendLine_outSpec (s : State) : s.extendLine.outSpec = s.outSpec := rfl
@[simp] theorem State.extendLine_outValid (s : State) : s.extendLine.outValid = s.outValid := rfl
@[simp] theorem State.extendLine_inputs (s : State) : s.extendLine.inputs = s.inputs := rfl

/-! ### `State.killLine` -/

@[simp] theorem State.killLine_mode (s : State) : s.killLine.mode = s.mode := rfl
@[simp] theorem State.killLine_mpos (s : State) : s.killLine.mpos = 0#3 := rfl
@[simp] theorem State.killLine_mdead (s : State) : s.killLine.mdead = true := rfl
@[simp] theorem State.killLine_pcount (s : State) : s.killLine.pcount = s.pcount := rfl
@[simp] theorem State.killLine_pbuf (s : State) : s.killLine.pbuf = s.pbuf := rfl
@[simp] theorem State.killLine_outSpec (s : State) : s.killLine.outSpec = s.outSpec := rfl
@[simp] theorem State.killLine_outValid (s : State) : s.killLine.outValid = s.outValid := rfl
@[simp] theorem State.killLine_inputs (s : State) : s.killLine.inputs = s.inputs := rfl

/-! ### `State.setPbuf` -/

@[simp] theorem State.setPbuf_mode (s : State) (m : Memory) : (s.setPbuf m).mode = s.mode := rfl
@[simp] theorem State.setPbuf_mpos (s : State) (m : Memory) : (s.setPbuf m).mpos = s.mpos := rfl
@[simp] theorem State.setPbuf_mdead (s : State) (m : Memory) : (s.setPbuf m).mdead = s.mdead := rfl
@[simp] theorem State.setPbuf_pcount (s : State) (m : Memory) : (s.setPbuf m).pcount = s.pcount := rfl
@[simp] theorem State.setPbuf_pbuf (s : State) (m : Memory) : (s.setPbuf m).pbuf = m := rfl
@[simp] theorem State.setPbuf_outSpec (s : State) (m : Memory) : (s.setPbuf m).outSpec = s.outSpec := rfl
@[simp] theorem State.setPbuf_outValid (s : State) (m : Memory) : (s.setPbuf m).outValid = s.outValid := rfl
@[simp] theorem State.setPbuf_inputs (s : State) (m : Memory) : (s.setPbuf m).inputs = s.inputs := rfl

/-! ### `State.countPayload` -/

@[simp] theorem State.countPayload_mode (s : State) : s.countPayload.mode = s.mode := rfl
@[simp] theorem State.countPayload_mpos (s : State) : s.countPayload.mpos = s.mpos := rfl
@[simp] theorem State.countPayload_mdead (s : State) : s.countPayload.mdead = s.mdead := rfl
@[simp] theorem State.countPayload_pcount (s : State) : s.countPayload.pcount = s.pcount + 1#10 := rfl
@[simp] theorem State.countPayload_pbuf (s : State) : s.countPayload.pbuf = s.pbuf := rfl
@[simp] theorem State.countPayload_outSpec (s : State) : s.countPayload.outSpec = s.outSpec := rfl
@[simp] theorem State.countPayload_outValid (s : State) : s.countPayload.outValid = s.outValid := rfl
@[simp] theorem State.countPayload_inputs (s : State) : s.countPayload.inputs = s.inputs := rfl

/-! ### `State.emit` -/

@[simp] theorem State.emit_mode (s : State) (sp : Spectrum) : (s.emit sp).mode = .M := rfl
@[simp] theorem State.emit_mpos (s : State) (sp : Spectrum) : (s.emit sp).mpos = s.mpos := rfl
@[simp] theorem State.emit_mdead (s : State) (sp : Spectrum) : (s.emit sp).mdead = s.mdead := rfl
@[simp] theorem State.emit_pcount (s : State) (sp : Spectrum) : (s.emit sp).pcount = 0#10 := rfl
@[simp] theorem State.emit_pbuf (s : State) (sp : Spectrum) : (s.emit sp).pbuf = s.pbuf := rfl
@[simp] theorem State.emit_outSpec (s : State) (sp : Spectrum) : (s.emit sp).outSpec = some sp := rfl
@[simp] theorem State.emit_outValid (s : State) (sp : Spectrum) : (s.emit sp).outValid = true := rfl
@[simp] theorem State.emit_inputs (s : State) (sp : Spectrum) : (s.emit sp).inputs = s.inputs := rfl

/-! ### `State.clear` -/

@[simp] theorem State.clear_mode (s : State) : s.clear.mode = .M := rfl
@[simp] theorem State.clear_mpos (s : State) : s.clear.mpos = 0#3 := rfl
@[simp] theorem State.clear_mdead (s : State) : s.clear.mdead = false := rfl
@[simp] theorem State.clear_pcount (s : State) : s.clear.pcount = 0#10 := rfl
@[simp] theorem State.clear_pbuf (s : State) : s.clear.pbuf = [] := rfl
@[simp] theorem State.clear_outSpec (s : State) : s.clear.outSpec = none := rfl
@[simp] theorem State.clear_outValid (s : State) : s.clear.outValid = false := rfl
@[simp] theorem State.clear_inputs (s : State) : s.clear.inputs = s.inputs := rfl

/-! ### `State.present` -/

@[simp] theorem State.present_mode (s : State) (ins : List Input) : (s.present ins).mode = s.mode := rfl
@[simp] theorem State.present_mpos (s : State) (ins : List Input) : (s.present ins).mpos = s.mpos := rfl
@[simp] theorem State.present_mdead (s : State) (ins : List Input) : (s.present ins).mdead = s.mdead := rfl
@[simp] theorem State.present_pcount (s : State) (ins : List Input) : (s.present ins).pcount = s.pcount := rfl
@[simp] theorem State.present_pbuf (s : State) (ins : List Input) : (s.present ins).pbuf = s.pbuf := rfl
@[simp] theorem State.present_outSpec (s : State) (ins : List Input) : (s.present ins).outSpec = s.outSpec := rfl
@[simp] theorem State.present_outValid (s : State) (ins : List Input) : (s.present ins).outValid = s.outValid := rfl
@[simp] theorem State.present_inputs (s : State) (ins : List Input) : (s.present ins).inputs = ins := rfl

/-! ### `State.consumeInput` -/

@[simp] theorem State.consumeInput_mode (s : State) : s.consumeInput.mode = s.mode := rfl
@[simp] theorem State.consumeInput_mpos (s : State) : s.consumeInput.mpos = s.mpos := rfl
@[simp] theorem State.consumeInput_mdead (s : State) : s.consumeInput.mdead = s.mdead := rfl
@[simp] theorem State.consumeInput_pcount (s : State) : s.consumeInput.pcount = s.pcount := rfl
@[simp] theorem State.consumeInput_pbuf (s : State) : s.consumeInput.pbuf = s.pbuf := rfl
@[simp] theorem State.consumeInput_outSpec (s : State) : s.consumeInput.outSpec = s.outSpec := rfl
@[simp] theorem State.consumeInput_outValid (s : State) : s.consumeInput.outValid = s.outValid := rfl
@[simp] theorem State.consumeInput_inputs (s : State) : s.consumeInput.inputs = s.inputs.tail := rfl

/-! ### `State.reset` -/

@[simp] theorem State.reset_mode : State.reset.mode = .M := rfl
@[simp] theorem State.reset_mpos : State.reset.mpos = 0#3 := rfl
@[simp] theorem State.reset_mdead : State.reset.mdead = false := rfl
@[simp] theorem State.reset_pcount : State.reset.pcount = 0#10 := rfl
@[simp] theorem State.reset_pbuf : State.reset.pbuf = [] := rfl
@[simp] theorem State.reset_outSpec : State.reset.outSpec = none := rfl
@[simp] theorem State.reset_outValid : State.reset.outValid = false := rfl
@[simp] theorem State.reset_inputs : State.reset.inputs = [] := rfl

end Sys2Proof.Machine
end

