-- ==== Sys2Proof/Laws/Stream.lean ====
section
/-! SUPPORT. The bytes that an input sequence delivers, and lines. -/

namespace Sys2Proof.Machine

open Sys2Proof.Config

@[simp] theorem deliveredBytes_nil : deliveredBytes [] = [] := rfl

/-- The bytes of a sequence with a first input. -/
theorem deliveredBytes_cons (i : Input) (ins : List Input) :
    deliveredBytes (i :: ins) = (if i.delivers then [i.inData] else []) ++ deliveredBytes ins := by
  unfold deliveredBytes
  rw [List.filter_cons]
  split <;> simp

@[simp] theorem deliveredBytes_append (ins ins' : List Input) :
    deliveredBytes (ins ++ ins') = deliveredBytes ins ++ deliveredBytes ins' := by
  simp [deliveredBytes]

@[simp] theorem deliveredBytes_streamBytes (bs : List Byte) : deliveredBytes (streamBytes bs) = bs := by
  induction bs with
  | nil => rfl
  | cons b bs ih =>
    simp only [streamBytes, List.map_cons] at *
    simp [deliveredBytes_cons, Input.delivers, Input.byte, ih]

@[simp] theorem deliveredBytes_streamIdle (n : Nat) : deliveredBytes (streamIdle n) = [] := by
  simp [deliveredBytes, streamIdle, Input.delivers, Input.idle]

theorem noReset_streamBytes (bs : List Byte) : NoReset (streamBytes bs) := by
  intro i hi
  obtain ⟨b, -, rfl⟩ := List.mem_map.mp hi
  rfl

theorem noReset_streamIdle (n : Nat) : NoReset (streamIdle n) := by
  intro i hi
  rw [List.eq_of_mem_replicate hi]
  rfl

theorem noReset_append {ins ins' : List Input} (h : NoReset ins) (h' : NoReset ins') : NoReset (ins ++ ins') :=
  fun i hi => (List.mem_append.mp hi).elim (h i) (h' i)

@[simp] theorem currentLine_nil : currentLine [] = [] := rfl

/-- One byte more. -/
theorem currentLine_append_byte (bs : List Byte) (b : Byte) :
    currentLine (bs ++ [b]) = if b = lf then [] else currentLine bs ++ [b] := by
  simp [currentLine, lineAfter]

end Sys2Proof.Machine
end

