-- ==== Sys2Proof/Laws/Observe.lean ====
section
/-! SUPPORT. What the shared operations around a step and a run answer: the consumer's reads, the input of the edge, and
the observation of one step more. -/

namespace Sys2Proof.Machine

open Sys2Proof.Config

/-! ### Inputs -/

@[simp] theorem State.nextInput_present_cons (s : State) (i : Input) (ins : List Input) :
    (s.present (i :: ins)).nextInput = i := rfl

@[simp] theorem State.consumeInput_present_cons (s : State) (i : Input) (ins : List Input) :
    (s.present (i :: ins)).consumeInput = s.present ins := rfl

@[simp] theorem State.present_present (s : State) (ins ins' : List Input) :
    (s.present ins).present ins' = s.present ins' := rfl

/-! ### The conditions of the rules -/

theorem State.lineIsMarker_iff (s : State) : s.lineIsMarker = true ↔ s.mdead = false ∧ s.mpos.toNat = 6 := by
  simp [State.lineIsMarker]

theorem State.continuesMarker_iff (s : State) (b : Byte) :
    s.continuesMarker b = true ↔ s.mdead = false ∧ s.mpos.toNat < 6 ∧ marker[s.mpos.toNat]? = some b := by
  simp [State.continuesMarker, markerByte?, and_assoc]

theorem State.lastPayload_iff (s : State) : s.lastPayload = true ↔ s.pcount.toNat = 575 := by
  simp [State.lastPayload]

/-! ### The consumer's reads -/

/-- Everything the read of `out_spec` can answer with a value. -/
theorem State.readOutSpec_eq_next {s : State} {sp : Spectrum} : s.readOutSpec = .next sp ↔ s.outSpec = some sp := by
  unfold State.readOutSpec
  cases s.outSpec <;> simp

/-- Everything `emitted` can answer with a value: the Spectrum of the pulse, or none without one. -/
theorem State.emitted_eq_next {s : State} {e : Option Spectrum} :
    s.emitted = .next e ↔ if s.outValid then ∃ sp, s.outSpec = some sp ∧ e = some sp else e = none := by
  unfold State.emitted
  split
  · simp only [andThen_eq_next, State.readOutSpec_eq_next, Host.Outcome.next.injEq]
    exact ⟨fun ⟨sp, h, he⟩ => ⟨sp, h, he.symm⟩, fun ⟨sp, h, he⟩ => ⟨sp, h, he.symm⟩⟩
  · simp only [Host.Outcome.next.injEq]
    exact eq_comm

/-! ### Runs -/

@[simp] theorem observeSteps_zero (t : Nat) (s : State) : observeSteps 0 t s = .next ⟨[], s⟩ := rfl

/-- Everything a run of one step more can be observed to do. -/
theorem observeSteps_succ_eq_next {n t : Nat} {s : State} {o : Observation} :
    observeSteps (n + 1) t s = .next o ↔
      ∃ s' e o', step s = .next s' ∧ s'.emitted = .next e ∧ observeSteps n (t + 1) s' = .next o' ∧
        o = o'.withStep t e := by
  simp only [observeSteps, andThen_eq_next, Host.Outcome.next.injEq]
  constructor
  · rintro ⟨s', h1, e, h2, o', h3, h4⟩
    exact ⟨s', e, o', h1, h2, h3, h4.symm⟩
  · rintro ⟨s', e, o', h1, h2, h3, h4⟩
    exact ⟨s', h1, e, h2, o', h3, h4.symm⟩

@[simp] theorem Observation.withStep_none (o : Observation) (t : Nat) : o.withStep t none = o := rfl

@[simp] theorem Observation.withStep_some (o : Observation) (t : Nat) (sp : Spectrum) :
    o.withStep t (some sp) = ⟨⟨t, sp⟩ :: o.emissions, o.final⟩ := rfl

end Sys2Proof.Machine
end

