-- ==== Sys2Proof/Laws/PerInstr.lean ====
section
/-! SUPPORT. What is said of every operation as syntax: its encoding lies in its own row of the operation table (R50). -/

namespace Sys2Proof.Laws.OwnRow

/-- The encoding of the operation matches the mask and match of the table's row for it. -/
def Statement (i : Instr) : Prop :=
  ∃ r ∈ opTable, r.op = i.op ∧ r.selects (encode i) = true

theorem reset (mode : Mode) (inValid : Bool) (inData : Byte) : Statement (.reset mode inValid inData) :=
  ⟨⟨.reset, 0x400#11, 0x400#11⟩, by decide, rfl, by revert inData; cases mode <;> cases inValid <;> decide⟩

theorem idle (mode : Mode) (inData : Byte) : Statement (.idle mode inData) :=
  ⟨⟨.idle, 0x500#11, 0x000#11⟩, by decide, rfl, by revert inData; cases mode <;> decide⟩

theorem mLf : Statement .mLf :=
  ⟨⟨.mLf, 0x7FF#11, 0x10A#11⟩, by decide, rfl, by decide⟩

theorem mChr (b : Byte) : Statement (.mChr b) :=
  ⟨⟨.mChr, 0x700#11, 0x100#11⟩, by decide, rfl, by revert b; decide⟩

theorem pByte (b : Byte) : Statement (.pByte b) :=
  ⟨⟨.pByte, 0x700#11, 0x300#11⟩, by decide, rfl, by revert b; decide⟩

end Sys2Proof.Laws.OwnRow
end

