-- ==== Sys2Proof/Tests/Slice0.lean ====
section
/-! SUPPORT. The model's own tests, on values that spec/95_test_vectors.md or a rule writes out (the comment at each names
it), and for every obligation with hypotheses a concrete state and operands that meet them together. -/

namespace Sys2Proof.Tests

open Sys2Proof.Machine Sys2Proof.Config

/-! ### WellFormed, decode -/

/-- R59: M_CHR never carries `LF`. -/
theorem test_wellFormed_refuses_mChr_lf : (Instr.mChr 0x0A#8).wellFormed = false := by decide

/-- The table's `1mvdddddddd`, `m = 1`, `v = 1`, `d = 0x09` (V-R, `W = 0x709`). -/
theorem test_decode_reset : (decodeWord 0b11100001001#11).toOption = some (.reset .P true 0x09#8) := by decide

/-- The table's `0m0dddddddd`, `m = 1`, `d = 0x0A` (V-I: `in_data` is ignored). -/
theorem test_decode_idle : (decodeWord 0b01000001010#11).toOption = some (.idle .P 0x0A#8) := by decide

/-- The table's `00100001010`. -/
theorem test_decode_mLf : (decodeWord 0b00100001010#11).toOption = some .mLf := by decide

/-- The table's `001dddddddd`, `d = 0x6A` (P1: `j` is `0x16A`). -/
theorem test_decode_mChr : (decodeWord 0b00101101010#11).toOption = some (.mChr 0x6A#8) := by decide

/-- The table's `011dddddddd`, `d = 0x0A` (V-P: `0x30A`, LF is data). -/
theorem test_decode_pByte : (decodeWord 0b01100001010#11).toOption = some (.pByte 0x0A#8) := by decide

/-- R49: the decode word has 11 bits. -/
theorem test_decode_refuses_bit_11 : decodeTableWord 16 0x800 = none := by decide

theorem test_decode_refuses_one_byte : (decodeBytes [0x21#8]).toOption = none := by decide

/-- R56: the text notation, on the marker (R10). -/
theorem test_streamText_marker : deliveredBytes (streamText "!spek!\n") = marker := by decide

/-! ### One step of each operation -/

/-- A state written as spec/95_test_vectors.md writes it, with one input to come. -/
def before (mode : Mode) (mpos : BitVec 3) (mdead : Bool) (pcount : BitVec 10) (i : Input) : State :=
  { State.reset with mode := mode, mpos := mpos, mdead := mdead, pcount := pcount, inputs := [i] }

/-- `(mode, mpos, mdead, pcount, out_valid, out_have)` after the step. -/
def after (s : State) : Option (Mode × BitVec 3 × Bool × BitVec 10 × Bool × Bool) :=
  match step s with
  | .next t => some (t.mode, t.mpos, t.mdead, t.pcount, t.outValid, t.outHave)
  | .fault _ => none
  | .refused _ => none

/-- The buffer with the first `n` entries 0. -/
def filled : Nat → Memory
  | 0 => []
  | n + 1 => Memory.put n 0x00#8 (filled n)

/-- A Spectrum of zeros. -/
def zeroSpectrum : Spectrum := Vector.replicate 288 0x0000#16

/-- A frame of zeros. -/
def zeroFrame : Frame := Vector.replicate 576 0x00#8

/-- V-R: `(P,0,0,575,0,1)` and `rst = 1` with byte `0x09` gives `S_RST`. -/
theorem test_reset_wins_over_last_byte :
    after { before .P 0#3 false 575#10 (Input.rstStep true 0x09#8) with outSpec := some zeroSpectrum } =
      some (.M, 0#3, false, 0#10, false, false) := by decide

/-- V-R: `(M,4,0,0,0,1)` and RESET gives `S_RST`. -/
theorem test_reset_drops_partial_line :
    after (before .M 4#3 false 0#10 (Input.rstStep false 0x00#8)) = some (.M, 0#3, false, 0#10, false, false) := by
  decide

/-- V-I: `(M,0,0,0,1,1)` and IDLE gives `(M,0,0,0,0,1)`. -/
theorem test_idle_clears_pulse :
    after { before .M 0#3 false 0#10 (Input.idle 0x0A#8) with outSpec := some zeroSpectrum, outValid := true } =
      some (.M, 0#3, false, 0#10, false, true) := by decide

/-- V-I: `(P,0,0,300,0,0)` and IDLE gives the same. -/
theorem test_idle_holds_frame :
    after (before .P 0#3 false 300#10 (Input.idle 0x00#8)) = some (.P, 0#3, false, 300#10, false, false) := by decide

/-- V-L: `(6, 0)` moves to mode `P`. -/
theorem test_mLf_matches :
    after (before .M 6#3 false 0#10 (Input.byte 0x0A#8)) = some (.P, 0#3, false, 0#10, false, false) := by decide

/-- V-L: `(5, 0)`, `"!spek\n"`, does not. -/
theorem test_mLf_short_line :
    after (before .M 5#3 false 0#10 (Input.byte 0x0A#8)) = some (.M, 0#3, false, 0#10, false, false) := by decide

/-- V-C: `(5,0)` and `0x21` gives `(6,0)`. -/
theorem test_mChr_extends :
    after (before .M 5#3 false 0#10 (Input.byte 0x21#8)) = some (.M, 6#3, false, 0#10, false, false) := by decide

/-- V-C: `(6,0)` and `0x21` gives `(0,1)`. -/
theorem test_mChr_too_long :
    after (before .M 6#3 false 0#10 (Input.byte 0x21#8)) = some (.M, 0#3, true, 0#10, false, false) := by decide

/-- V-P: `(P,0,0,574,0,0)` and `0x0A` gives `(P,0,0,575,0,0)`. -/
theorem test_pByte_lf_is_data :
    after (before .P 0#3 false 574#10 (Input.byte 0x0A#8)) = some (.P, 0#3, false, 575#10, false, false) := by decide

/-- V-U: `0x01, 0x80` is `0x0180`, and `0x12, 0x34` is `0x1234`. -/
theorem test_join_is_unsigned_big_endian :
    joinBytes 0x01#8 0x80#8 = 0x0180#16 ∧ joinBytes 0x12#8 0x34#8 = 0x1234#16 := by decide

/-! ### Facts the witnesses share -/

theorem get?_filled (n a : Nat) : Memory.get? (filled n) a = if a < n then some 0x00#8 else none := by
  induction n with
  | zero => simp [filled]
  | succ n ih =>
    rw [filled, Memory.get?_put, ih]
    by_cases h : a = n
    · simp [h]
    · by_cases h' : a < n
      · rw [if_neg h, if_pos h', if_pos (by omega)]
      · rw [if_neg h, if_neg h', if_neg (by omega)]

theorem zeroFrame_get? (k : Nat) (h : k < 576) : zeroFrame[k]? = some 0x00#8 := by
  simp [zeroFrame, h]

/-- A prefix too short to hold the marker does not end with a marker line. -/
theorem not_endsMarkerLine_of_short {p : List Byte} (h : p.length < 7) : ¬ EndsMarkerLine p := by
  rintro ⟨b, rfl, -⟩
  simp [marker] at h

/-- A state about to receive the last byte of a frame, over a buffer. -/
def lastByteOver (m : Memory) : State := { before .P 0#3 false 575#10 (Input.byte 0x00#8) with pbuf := m }

/-- A state about to receive the last byte of a frame of zeros. -/
def lastByteState : State := lastByteOver (filled 575)

theorem lastByteOver_pcount (m : Memory) : (lastByteOver m).pcount.toNat = 575 := by
  simp [lastByteOver, before]

theorem lastByteOver_pbuf (m : Memory) : (lastByteOver m).pbuf = m := rfl

theorem lastByteOver_emits (m : Memory) : (lastByteOver m).Emits := ⟨rfl, rfl, rfl, lastByteOver_pcount m⟩

theorem lastByteOver_step (m : Memory) (f : Frame) (h : readFrame (Memory.put 575 0x00#8 m) = .next f) :
    step (lastByteOver m) =
      .next (((lastByteOver m).consumeInput.setPbuf (Memory.put 575 0x00#8 m)).emit (unpack f)) := by
  have hx : step (lastByteOver m) = execPByte 0x00#8 (lastByteOver m).consumeInput := by
    have hw : (lastByteOver m).decodeWord = formWord false .P true 0x00#8 := rfl
    have hd : decodeWord (formWord false .P true 0x00#8) = .ok (.pByte 0x00#8) := rfl
    rw [step, hw, hd]
    rfl
  have hw : memWrite (lastByteOver m).consumeInput.pcount.toNat 0x00#8 (lastByteOver m).consumeInput.pbuf =
      .next (Memory.put 575 0x00#8 m) := by
    simp [memWrite, lastByteOver_pcount, lastByteOver_pbuf]
  have hl : (lastByteOver m).consumeInput.lastPayload = true := by
    simp [State.lastPayload, lastByteOver_pcount]
  rw [hx, execPByte, hw, andThen_next, if_pos hl, h, andThen_next]

theorem lastByteOver_legal (m : Memory) (hb : ∀ a < 575, (Memory.get? m a).isSome = true) (hw : Memory.wf m) :
    (lastByteOver m).Legal :=
  ⟨(nomatch ·), fun _ => ⟨rfl, rfl⟩, ⟨Nat.zero_le _, (lastByteOver_pcount m).le⟩,
    fun _ a ha => hb a (lastByteOver_pcount m ▸ ha), (nomatch ·), (nomatch ·), hw⟩

theorem filled_wf (n : Nat) (h : n ≤ 576) : Memory.wf (filled n) := by
  induction n with
  | zero => exact Memory.wf_nil
  | succ n ih => exact Memory.put_wf (show n < 576 by omega) (ih (by omega))

theorem filled_held (n a : Nat) (h : a < n) : (Memory.get? (filled n) a).isSome = true := by
  rw [get?_filled, if_pos h]
  rfl

theorem lastByteState_emits : lastByteState.Emits := lastByteOver_emits _

theorem readFrame_zero : readFrame (Memory.put 575 0x00#8 (filled 575)) = .next zeroFrame := by
  rw [readFrame_eq_next]
  intro k hk
  rw [Memory.get?_put, get?_filled, zeroFrame_get? k hk]
  have hk' : k < 576 := hk
  by_cases h : k = 575
  · rw [if_pos h]
  · rw [if_neg h, if_pos (by omega)]

theorem lastByteState_steps : ∃ t, step lastByteState = .next t :=
  ⟨_, lastByteOver_step _ zeroFrame readFrame_zero⟩

/-- V-P: `(P,0,0,575,0,x)` and `b` gives `(M,0,0,0,1,1)`. -/
theorem test_pByte_last_emits : after lastByteState = some (.M, 0#3, false, 0#10, true, true) := by
  rw [after, lastByteState, lastByteOver_step _ zeroFrame readFrame_zero]
  rfl

theorem lastByteState_legal : lastByteState.Legal :=
  lastByteOver_legal _ (filled_held 575) (filled_wf 575 (by omega))

/-! ### Witnesses: concrete states and operands that meet an obligation's hypotheses -/

theorem witness_OperationTableInWords : (0x121#11 : DecodeWord) ≠ 0x10A#11 := by decide

theorem witness_DecodeEncodeAgree : (Instr.mChr 0x21#8).wellFormed = true := by decide

theorem witness_EncodeDecodeAgree : (Instr.mLf).wellFormed = true ∧ encode .mLf = 0x10A#11 := by decide

theorem witness_PlacedWordRunsNext : (Instr.pByte 0x0A#8).wellFormed = true := by decide

theorem witness_StepRunsDecodedOperation :
    decodeWord (before .M 6#3 false 0#10 (Input.byte 0x0A#8)).decodeWord = .ok .mLf ∧
      (before .M 6#3 false 0#10 (Input.byte 0x0A#8)).inputs = Input.byte 0x0A#8 :: [] ∧ State.reset.inputs = [] :=
  ⟨rfl, rfl, rfl⟩

theorem witness_StepFollowsPriority_reset :
    (before .P 0#3 false 575#10 (Input.rstStep true 0x09#8)).nextInput.rst = true := by decide

theorem witness_StepFollowsPriority_idle :
    (before .P 0#3 false 5#10 (Input.idle 0x0A#8)).nextInput.rst = false ∧
      (before .P 0#3 false 5#10 (Input.idle 0x0A#8)).nextInput.inValid = false := by decide

theorem witness_StepFollowsPriority_pByte :
    let s := before .P 0#3 false 5#10 (Input.byte 0x0A#8)
    s.nextInput.rst = false ∧ s.nextInput.inValid = true ∧ s.mode = .P := by decide

theorem witness_StepFollowsPriority_mLf :
    let s := before .M 5#3 false 0#10 (Input.byte 0x0A#8)
    s.nextInput.rst = false ∧ s.nextInput.inValid = true ∧ s.mode = .M ∧ s.nextInput.inData = 0x0A#8 := by decide

theorem witness_StepFollowsPriority_mChr :
    let s := before .M 5#3 false 0#10 (Input.byte 0x0B#8)
    s.nextInput.rst = false ∧ s.nextInput.inValid = true ∧ s.mode = .M ∧ s.nextInput.inData ≠ 0x0A#8 := by decide

theorem witness_StepFollowsPriority_oneStep : ∃ o, observeSteps 1 0 State.reset = .next o := ⟨_, rfl⟩

theorem witness_StepConsumesOneInput : ∃ t, step (before .M 0#3 false 0#10 (Input.byte 0x21#8)) = .next t := ⟨_, rfl⟩

theorem witness_ConsecutiveResetsActAsOne :
    streamRst ++ streamRst ≠ [] ∧ ∀ i ∈ streamRst ++ streamRst, i.rst = true := by decide

theorem witness_ResetForgetsTheStateBefore : (Input.rstStep true 0x21#8).rst = true := by decide

theorem witness_ResetWritesEveryRegister : (0x709#11 : DecodeWord) &&& 0x400#11 = 0x400#11 := by decide

theorem witness_IdleClearsOnlyThePulse : (0x20A#11 : DecodeWord) &&& 0x500#11 = 0x000#11 := by decide

theorem witness_ChrExtendsOrKillsTheLine :
    (0x10B#11 : DecodeWord) &&& 0x700#11 = 0x100#11 ∧ (0x10B#11 : DecodeWord) ≠ 0x10A#11 ∧
    (before .M 5#3 false 0#10 (Input.byte 0x21#8)).mpos.toNat < 6 ∧ (0x80#8 : Byte) ≤ 0x80#8 := by decide

theorem witness_LineRegistersDescribeTheLine :
    State.reset.mode = .M ∧ State.reset.mpos = 0#3 ∧ State.reset.mdead = false ∧
      NoReset (streamBytes (marker.take 6)) ∧
      ∀ p, p <+: deliveredBytes (streamBytes (marker.take 6)) → ¬ EndsMarkerLine p := by
  refine ⟨rfl, rfl, rfl, noReset_streamBytes _, fun p hp => not_endsMarkerLine_of_short ?_⟩
  have := hp.length_le
  simp [marker] at this
  omega

theorem witness_FirstMarkerLineEntersPayload :
    State.reset.mode = .M ∧ State.reset.mpos = 0#3 ∧ State.reset.mdead = false ∧ NoReset (streamBytes marker) ∧
      ∀ p, p <+: deliveredBytes (streamBytes marker) → p ≠ deliveredBytes (streamBytes marker) →
        ¬ EndsMarkerLine p := by
  refine ⟨rfl, rfl, rfl, noReset_streamBytes _, fun p hp hne => not_endsMarkerLine_of_short ?_⟩
  have hle := hp.length_le
  have hn : p.length ≠ (deliveredBytes (streamBytes marker)).length := fun h => hne (hp.eq_of_length h)
  rw [deliveredBytes_streamBytes] at hle hn
  have hm : marker.length = 7 := rfl
  omega

theorem witness_MarkerModeKeepsOutputs :
    let s := before .M 0#3 false 0#10 (Input.byte 0x21#8)
    s.mode = .M ∧ s.nextInput.rst = false ∧ ∃ t, step s = .next t := ⟨rfl, rfl, _, rfl⟩

theorem witness_PayloadModeEnteredOnlyByMarker :
    let s := before .M 6#3 false 0#10 (Input.byte 0x0A#8)
    s.mode = .M ∧ ∃ t, step s = .next t ∧ t.mode = .P := ⟨rfl, _, rfl, rfl⟩

theorem witness_WrittenByteIsRead : 575 ≤ 575 ∧ 575 < 576 := by decide

theorem witness_UnwrittenEntryIsNeverRead : 575 ≤ 575 ∧ Memory.get? [] 575 = none ∧ State.reset.Legal := by decide

theorem witness_OnlyPByteWritesTheBuffer :
    let s := before .P 0#3 false 0#10 (Input.byte 0x01#8)
    s.nextInput.rst = false ∧ ∃ t, step s = .next t ∧ Memory.get? t.pbuf 0 ≠ Memory.get? s.pbuf 0 :=
  ⟨rfl, _, rfl, by decide⟩

theorem witness_PayloadByteIsCaptured :
    (0x30A#11 : DecodeWord) &&& 0x700#11 = 0x300#11 ∧ (before .P 0#3 false 574#10 (Input.byte 0x0A#8)).pcount.toNat < 575 := by decide

theorem witness_LastPayloadByteEmits :
    lastByteState.pcount.toNat = 575 ∧ (∀ k, k < 575 → Memory.get? lastByteState.pbuf k = zeroFrame[k]?) ∧
      zeroFrame[575]? = some 0x00#8 := by
  have h : ∀ k, k < 575 → Memory.get? (filled 575) k = zeroFrame[k]? := fun k hk => by
    rw [get?_filled, if_pos hk, zeroFrame_get? k (by omega)]
  rw [lastByteState, lastByteOver_pbuf]
  exact ⟨lastByteOver_pcount _, h, zeroFrame_get? 575 (by omega)⟩

theorem witness_PayloadByteStopsOutsideLegalStates_address :
    575 < (before .P 0#3 false 576#10 (Input.byte 0x0A#8)).pcount.toNat := by decide

theorem witness_PayloadByteStopsOutsideLegalStates_value :
    (lastByteOver (filled 574)).pcount.toNat = 575 ∧ 574 < 575 ∧
      Memory.get? (lastByteOver (filled 574)).pbuf 574 = none ∧
      ∀ j, j < 574 → (Memory.get? (lastByteOver (filled 574)).pbuf j).isSome = true := by
  have h : Memory.get? (filled 574) 574 = none := by rw [get?_filled, if_neg (by omega)]
  rw [lastByteOver_pbuf]
  exact ⟨lastByteOver_pcount _, by omega, h, filled_held 574⟩

theorem witness_FlatBusHoldsSampleAtItsLane :
    { State.reset with outSpec := some zeroSpectrum }.outSpec = some zeroSpectrum := rfl

theorem witness_PayloadValueDoesNotFrame :
    let s := before .P 0#3 false 0#10 (Input.byte 0x01#8)
    s.mode = .P ∧ ∃ t, exec (.pByte 0x0A#8) s = .next t := ⟨rfl, _, rfl⟩

theorem witness_PayloadModeLeftOnlyByEmissionOrReset :
    (lastByteState.mode = .P ∧ ∃ t, step lastByteState = .next t) ∧
      NoReset (streamIdle 3) ∧ deliveredBytes (streamIdle 3) = [] :=
  ⟨⟨rfl, lastByteState_steps⟩, noReset_streamIdle 3, deliveredBytes_streamIdle 3⟩

theorem witness_PayloadLandsInArrivalOrder :
    let s := before .P 0#3 false 574#10 (Input.byte 0x01#8)
    s.mode = .P ∧ NoReset (streamIdle 2 ++ streamBytes [0x0A#8]) ∧
      s.pcount.toNat + (deliveredBytes (streamIdle 2 ++ streamBytes [0x0A#8])).length ≤ 575 := by decide

theorem witness_PulseExactlyAfterEmission : lastByteState.Emits ∧ ∃ t, step lastByteState = .next t :=
  ⟨lastByteState_emits, lastByteState_steps⟩

theorem witness_OutSpecWrittenOnlyByEmissionOrReset_reset :
    let s := before .M 0#3 false 0#10 (Input.rstStep false 0x00#8)
    s.nextInput.rst = true ∧ ∃ t, step s = .next t := ⟨rfl, _, rfl⟩

theorem witness_OutSpecWrittenOnlyByEmissionOrReset_emission :
    lastByteState.Emits ∧ ∃ t, step lastByteState = .next t := ⟨lastByteState_emits, lastByteState_steps⟩

theorem witness_OutSpecWrittenOnlyByEmissionOrReset_other :
    let s := before .P 0#3 false 574#10 (Input.byte 0x00#8)
    s.nextInput.rst = false ∧ ¬ s.Emits ∧ ∃ t, step s = .next t := ⟨rfl, by decide, _, rfl⟩

theorem witness_OutHaveSaysReadable :
    { State.reset with outSpec := some zeroSpectrum }.outSpec = some zeroSpectrum ∧ State.reset.outSpec = none :=
  ⟨rfl, rfl⟩

theorem witness_StepKeepsLegal : lastByteState.Legal ∧ ∃ t, step lastByteState = .next t :=
  ⟨lastByteState_legal, lastByteState_steps⟩

theorem witness_LegalStepGoesOn : lastByteState.Legal ∧ (lastByteState.Emits ∨ lastByteState.nextInput.rst = true) :=
  ⟨lastByteState_legal, .inl lastByteState_emits⟩

theorem witness_NoInputIsAnError : State.reset.Legal := by decide

/-- The frame's bytes behind the marker's, with idle steps between them. -/
def splitFrame : List Input := streamBytes marker ++ streamIdle 2 ++ streamBytes zeroFrame.toList

theorem noReset_splitFrame : NoReset splitFrame :=
  noReset_append (noReset_append (noReset_streamBytes _) (noReset_streamIdle _)) (noReset_streamBytes _)

theorem deliveredBytes_splitFrame : deliveredBytes splitFrame = marker ++ zeroFrame.toList := by
  simp [splitFrame]

theorem witness_MarkerAndFrameEmitOnce :
    State.reset.AtLineStart ∧ NoReset splitFrame ∧ deliveredBytes splitFrame = marker ++ zeroFrame.toList :=
  ⟨by decide, noReset_splitFrame, deliveredBytes_splitFrame⟩

theorem witness_FramesEmittedInArrivalOrder :
    let session : List (List (List Byte) × Frame) := [([[0x6A#8, 0x0A#8]], zeroFrame), ([], zeroFrame)]
    let ins := streamBytes (session.flatMap fun p => p.1.flatten ++ marker ++ p.2.toList)
    State.reset.AtLineStart ∧ NoReset ins ∧
      (∀ p ∈ session, ∀ line ∈ p.1, line ≠ marker ∧ ∃ body : List Byte, line = body ++ [lf] ∧ lf ∉ body) ∧
      deliveredBytes ins = session.flatMap (fun p => p.1.flatten ++ marker ++ p.2.toList) := by
  refine ⟨by decide, noReset_streamBytes _, ?_, deliveredBytes_streamBytes _⟩
  intro p hp line hl
  rcases List.mem_cons.mp hp with rfl | hp
  · obtain rfl := List.mem_singleton.mp hl
    exact ⟨by decide, [0x6A#8], by decide, by decide⟩
  · obtain rfl := List.mem_singleton.mp hp
    simp at hl

theorem witness_NextBytesAreTheFrame :
    576 ≤ zeroFrame.toList.length ∧ State.reset.AtLineStart ∧ NoReset splitFrame ∧
      deliveredBytes splitFrame = marker ++ zeroFrame.toList :=
  ⟨by simp, by decide, noReset_splitFrame, deliveredBytes_splitFrame⟩

theorem witness_FalseLockEmits :
    let s := before .M 0#3 true 0#10 (Input.byte 0x00#8)
    s.mode = .M ∧ s.pcount = 0#10 ∧ s.lineIsMarker = false ∧ NoReset (Input.byte lf :: splitFrame) ∧
      deliveredBytes (Input.byte lf :: splitFrame) = lf :: (marker ++ zeroFrame.toList) := by
  refine ⟨rfl, rfl, rfl, fun i hi => ?_, ?_⟩
  · rcases List.mem_cons.mp hi with rfl | hi
    · rfl
    · exact noReset_splitFrame i hi
  · rw [deliveredBytes_cons, deliveredBytes_splitFrame]
    rfl

theorem witness_FewerThan583BytesFromLineStartEmitNothing :
    State.reset.AtLineStart ∧ NoReset (streamBytes (marker ++ List.replicate 575 0x00#8)) ∧
      (deliveredBytes (streamBytes (marker ++ List.replicate 575 0x00#8))).length < 583 := by
  refine ⟨by decide, noReset_streamBytes _, ?_⟩
  rw [deliveredBytes_streamBytes, List.length_append, List.length_replicate]
  decide

theorem witness_ChunkingDoesNotMatter :
    State.reset.Legal ∧ NoReset (streamText "!spek!\n") ∧
      NoReset (streamText "!sp" ++ streamIdle 5 ++ streamText "ek!\n") ∧
      deliveredBytes (streamText "!spek!\n") =
        deliveredBytes (streamText "!sp" ++ streamIdle 5 ++ streamText "ek!\n") := by decide

theorem witness_EmitsWhatTheSourceEmits :
    NoReset (streamText "!spek") ∧ deliveredBytes (streamText "!spek") = [[0x21#8, 0x73#8, 0x70#8], [], [0x65#8, 0x6B#8]].flatten := by
  decide

end Sys2Proof.Tests
end

section
/-! Statements of spec/00_scope.md. The layers are: a step by the pins of its edge, the source's decoder as a relation, the
relation between the SFS and that decoder, and the statements. -/

namespace Sys2Proof.Machine

open Sys2Proof.Config

/-! ### A step, by the pins of its edge (R83) -/

@[simp] theorem wordData_formWord (rst : Bool) (mode : Mode) (v : Bool) (d : Byte) :
    wordData (formWord rst mode v d) = d :=
  BitVec.extractLsb'_append_eq_right

theorem selectOp_idle (mode : Mode) (d : Byte) : selectOp (formWord false mode false d) = some .idle := by
  revert d
  cases mode <;> decide

theorem selectOp_mChr {b : Byte} (h : b ≠ lf) : selectOp (formWord false .M true b) = some .mChr := by
  revert b
  decide

theorem selectOp_pByte (b : Byte) : selectOp (formWord false .P true b) = some .pByte := by
  revert b
  decide

/-- A step runs the operation that the table selects for its decode word, the edge's input consumed. -/
theorem step_of_selectOp {s : State} {op : Op} (h : selectOp s.decodeWord = some op) :
    step s = exec (instrOfOp op s.decodeWord) s.consumeInput := by
  simp [step, Sys2Proof.decodeWord, h]

/-- R83: neither reset nor a byte. -/
theorem step_idle {s : State} (hr : s.nextInput.rst = false) (hv : s.nextInput.inValid = false) :
    step s = .next s.consumeInput.clearValid := by
  have hw : s.decodeWord = formWord false s.mode false s.nextInput.inData := by
    rw [State.decodeWord, hr, hv]
  rw [step_of_selectOp (hw ▸ selectOp_idle _ _)]
  rfl

/-- R83: the line terminator in mode `M`. -/
theorem step_mLf {s : State} (hm : s.mode = .M) (hr : s.nextInput.rst = false) (hv : s.nextInput.inValid = true)
    (hd : s.nextInput.inData = lf) : step s = execMLf s.consumeInput := by
  have hw : s.decodeWord = formWord false .M true lf := by rw [State.decodeWord, hm, hr, hv, hd]
  rw [step_of_selectOp (op := .mLf) (by rw [hw]; decide)]
  rfl

/-- R83: any other byte in mode `M`. -/
theorem step_mChr {s : State} (hm : s.mode = .M) (hr : s.nextInput.rst = false) (hv : s.nextInput.inValid = true)
    (hd : s.nextInput.inData ≠ lf) : step s = execMChr s.nextInput.inData s.consumeInput := by
  have hw : s.decodeWord = formWord false .M true s.nextInput.inData := by rw [State.decodeWord, hm, hr, hv]
  rw [step_of_selectOp (hw ▸ selectOp_mChr hd), hw, instrOfOp, wordData_formWord]
  rfl

/-- R83: a byte in mode `P`. -/
theorem step_pByte {s : State} (hm : s.mode = .P) (hr : s.nextInput.rst = false) (hv : s.nextInput.inValid = true) :
    step s = execPByte s.nextInput.inData s.consumeInput := by
  have hw : s.decodeWord = formWord false .P true s.nextInput.inData := by rw [State.decodeWord, hm, hr, hv]
  rw [step_of_selectOp (hw ▸ selectOp_pByte _), hw, instrOfOp, wordData_formWord]
  rfl

/-! ### P_BYTE, by the byte's place in the frame (R62) -/

theorem execPByte_capture (b : Byte) {s : State} (h : s.pcount.toNat < 575) :
    execPByte b s = .next (s.setPbuf (Memory.put s.pcount.toNat b s.pbuf)).countPayload.clearValid := by
  have hw : memWrite s.pcount.toNat b s.pbuf = .next (Memory.put s.pcount.toNat b s.pbuf) :=
    memWrite_eq_next.mpr ⟨show s.pcount.toNat < 576 by omega, rfl⟩
  have hl : ¬ s.lastPayload = true := by rw [State.lastPayload_iff]; omega
  rw [execPByte, hw, andThen_next, if_neg hl]

theorem execPByte_emit {b : Byte} {s : State} {f : Frame} (h : s.pcount.toNat = 575)
    (hf : readFrame (Memory.put 575 b s.pbuf) = .next f) :
    execPByte b s = .next ((s.setPbuf (Memory.put 575 b s.pbuf)).emit (unpack f)) := by
  have hw : memWrite s.pcount.toNat b s.pbuf = .next (Memory.put 575 b s.pbuf) :=
    memWrite_eq_next.mpr ⟨show s.pcount.toNat < 576 by omega, by rw [h]⟩
  rw [execPByte, hw, andThen_next, if_pos (s.lastPayload_iff.mpr h), hf, andThen_next]

/-- Below the last byte of a frame `pcount` does not wrap. -/
theorem State.countPayload_pcount_toNat {s : State} (h : s.pcount.toNat < 575) :
    s.countPayload.pcount.toNat = s.pcount.toNat + 1 := by
  rw [State.countPayload_pcount]
  bv_omega

/-! ### Observation -/

/-- Without a pulse nothing is seen on the ports. -/
theorem State.emitted_of_no_pulse {s : State} (h : s.outValid = false) : s.emitted = .next none := by
  simp [State.emitted_eq_next, h]

theorem State.emitted_of_pulse {s : State} {sp : Spectrum} (h : s.outValid = true) (hs : s.outSpec = some sp) :
    s.emitted = .next (some sp) := by
  simp [State.emitted_eq_next, h, hs]

@[simp] theorem Observation.withStep_final (o : Observation) (t : Nat) (e : Option Spectrum) :
    (o.withStep t e).final = o.final := by cases e <;> rfl

@[simp] theorem Observation.spectraOf_withStep (o : Observation) (t : Nat) (e : Option Spectrum) :
    spectraOf (o.withStep t e).emissions = e.toList ++ spectraOf o.emissions := by cases e <;> rfl

/-! ### The source's `readLine` -/

/-- There is a line to read exactly when an `LF` has come. -/
theorem readLine?_eq_none_iff {bs : List Byte} : readLine? bs = none ↔ lf ∉ bs := by
  induction bs with
  | nil => simp [readLine?]
  | cons b rest ih =>
    by_cases hb : b = lf
    · simp [readLine?, hb]
    · simp [readLine?, hb, ih, Ne.symm hb]

/-- A line is a non-empty part at the head of the bytes. -/
theorem readLine?_split {bs line rest : List Byte} (h : readLine? bs = some (line, rest)) :
    bs = line ++ rest ∧ line ≠ [] := by
  induction bs generalizing line with
  | nil => simp [readLine?] at h
  | cons b bs ih =>
    simp only [readLine?] at h
    split at h
    · obtain ⟨rfl, rfl⟩ : [b] = line ∧ bs = rest := by simpa using h
      simp
    · obtain ⟨p, hp, hpe⟩ := Option.map_eq_some_iff.mp h
      obtain ⟨rfl, rfl⟩ : b :: p.1 = line ∧ p.2 = rest := by simpa using hpe
      simp [← (ih hp).1]

/-- Bytes that come later do not change the line at the head. -/
theorem readLine?_append {bs line rest : List Byte} (h : readLine? bs = some (line, rest)) (more : List Byte) :
    readLine? (bs ++ more) = some (line, rest ++ more) := by
  induction bs generalizing line with
  | nil => simp [readLine?] at h
  | cons b bs ih =>
    simp only [readLine?, List.cons_append] at h ⊢
    split at h
    · rename_i hb
      obtain ⟨rfl, rfl⟩ : [b] = line ∧ bs = rest := by simpa using h
      rw [if_pos hb]
    · rename_i hb
      obtain ⟨p, hp, hpe⟩ := Option.map_eq_some_iff.mp h
      obtain ⟨rfl, rfl⟩ : b :: p.1 = line ∧ p.2 = rest := by simpa using hpe
      rw [if_neg hb, ih hp, Option.map_some]

/-- An `LF` ends the line in progress. -/
theorem readLine?_append_lf {line : List Byte} (h : lf ∉ line) :
    readLine? (line ++ [lf]) = some (line ++ [lf], []) := by
  induction line with
  | nil => rfl
  | cons b line ih =>
    obtain ⟨hb, hl⟩ := List.ne_and_not_mem_of_not_mem_cons h
    rw [List.cons_append, readLine?, if_neg hb.symm, ih hl, Option.map_some]

/-! ### The source's decoder -/

/-- The transport has more bytes for the decoder. -/
def Source.receive (d : Source) (bs : List Byte) : Source := { d with buffer := d.buffer ++ bs }

@[simp] theorem Source.receive_mk (m : Mode) (buf bs : List Byte) :
    (Source.mk m buf).receive bs = ⟨m, buf ++ bs⟩ := rfl

@[simp] theorem Source.receive_nil (d : Source) : d.receive [] = d := by simp [Source.receive]

theorem Source.receive_receive (d : Source) (bs cs : List Byte) :
    (d.receive bs).receive cs = d.receive (bs ++ cs) := by simp [Source.receive]

/-- A consumption in mode `M`: one line, compared with `MARKER`. -/
theorem Source.consume?_line (buf : List Byte) :
    (Source.mk .M buf).consume? =
      (readLine? buf).map fun p => (⟨if p.1 = marker then .P else .M, p.2⟩, none) := rfl

theorem Source.consume?_payload_short {buf : List Byte} (h : buf.length < 576) :
    (Source.mk .P buf).consume? = none := dif_neg (Nat.not_le.mpr h)

/-- A consumption in mode `P`: the frame at the head of the bytes. -/
theorem Source.consume?_frame (f : Frame) (rest : List Byte) :
    (Source.mk .P (f.toList ++ rest)).consume? = some (⟨.M, rest⟩, some (unpack f)) := by
  have hl : frameBytes ≤ (f.toList ++ rest).length := by simp
  have hf : (Vector.ofFn fun k : Fin frameBytes => (f.toList ++ rest)[k.val]'(Nat.lt_of_lt_of_le k.isLt hl)) = f := by
    ext i hi
    simp [List.getElem_append_left]
  simp only [Source.consume?, dif_pos hl, hf]
  simp

/-- Everything a consumption can be. -/
theorem Source.consume?_cases {d d' : Source} {e : Option Spectrum} (h : d.consume? = some (d', e)) :
    (∃ line rest, d.mode = .M ∧ readLine? d.buffer = some (line, rest) ∧
      d' = ⟨if line = marker then .P else .M, rest⟩ ∧ e = none) ∨
    (∃ (f : Frame) (rest : List Byte), d = ⟨.P, f.toList ++ rest⟩ ∧ d' = ⟨.M, rest⟩ ∧ e = some (unpack f)) := by
  obtain ⟨m, buf⟩ := d
  cases m with
  | M =>
    rw [Source.consume?_line] at h
    obtain ⟨p, hp, hpe⟩ := Option.map_eq_some_iff.mp h
    obtain ⟨rfl, rfl⟩ := Prod.mk.inj hpe
    exact .inl ⟨p.1, p.2, rfl, hp, rfl, rfl⟩
  | P =>
    by_cases hl : buf.length < 576
    · simp [Source.consume?_payload_short hl] at h
    · obtain ⟨f, rest, rfl⟩ : ∃ (f : Frame) (rest : List Byte), buf = f.toList ++ rest :=
        ⟨⟨(buf.take 576).toArray, by simp; omega⟩, buf.drop 576, by simp⟩
      rw [Source.consume?_frame] at h
      obtain ⟨rfl, rfl⟩ := Prod.mk.inj (Option.some.inj h)
      exact .inr ⟨f, rest, rfl, rfl, rfl⟩

/-- A consumption takes at least one byte. -/
theorem Source.consume?_length {d d' : Source} {e : Option Spectrum} (h : d.consume? = some (d', e)) :
    d'.buffer.length < d.buffer.length := by
  obtain ⟨line, rest, -, hl, rfl, -⟩ | ⟨f, rest, rfl, rfl, -⟩ := Source.consume?_cases h
  · obtain ⟨hb, hne⟩ := readLine?_split hl
    have := List.length_pos_iff.mpr hne
    simp only [hb, List.length_append]
    omega
  · simp

/-- Bytes that come later do not change a consumption. -/
theorem Source.consume?_receive {d d' : Source} {e : Option Spectrum} (h : d.consume? = some (d', e))
    (bs : List Byte) : (d.receive bs).consume? = some (d'.receive bs, e) := by
  obtain ⟨line, rest, hm, hl, rfl, rfl⟩ | ⟨f, rest, rfl, rfl, rfl⟩ := Source.consume?_cases h
  · obtain ⟨m, buf⟩ := d
    obtain rfl : m = .M := hm
    simp [Source.consume?_line, readLine?_append hl]
  · simp [Source.consume?_frame]

/-- `d` consumes until there is not enough, emits `es` and comes to `d'`. -/
inductive Source.DrainsTo : Source → List Spectrum → Source → Prop
  | settled {d : Source} (h : d.consume? = none) : DrainsTo d [] d
  | consume {d d' d'' : Source} {e : Option Spectrum} {es : List Spectrum} (h : d.consume? = some (d', e))
      (hr : DrainsTo d' es d'') : DrainsTo d (e.toList ++ es) d''

/-- `drain` is the relation, as soon as its fuel is enough. -/
theorem Source.drainsTo_drain {n : Nat} {d : Source} (h : d.buffer.length ≤ n) :
    d.DrainsTo (Source.drain n d).1 (Source.drain n d).2 := by
  induction n generalizing d with
  | zero =>
    refine .settled ?_
    cases hc : d.consume? with
    | none => rfl
    | some p =>
      have := Source.consume?_length hc
      omega
  | succ n ih =>
    cases hc : d.consume? with
    | none => simpa [Source.drain, hc] using DrainsTo.settled hc
    | some p =>
      obtain ⟨d', e⟩ := p
      have hlt := Source.consume?_length hc
      simpa [Source.drain, hc] using DrainsTo.consume hc (ih (by omega))

theorem Source.drainsTo_feed (d : Source) (chunk : List Byte) :
    (d.receive chunk).DrainsTo (d.feed chunk).1 (d.feed chunk).2 :=
  Source.drainsTo_drain (Nat.le_refl _)

namespace Source.DrainsTo

variable {d d₁ d₂ : Source} {es es₁ es₂ : List Spectrum}

theorem consume?_eq_none (h : d.DrainsTo es d₁) : d₁.consume? = none := by
  induction h with
  | settled h => exact h
  | consume _ _ ih => exact ih

/-- There is one way to drain. -/
theorem unique (h₁ : d.DrainsTo es₁ d₁) (h₂ : d.DrainsTo es₂ d₂) : es₁ = es₂ ∧ d₁ = d₂ := by
  induction h₁ generalizing es₂ with
  | settled h =>
    cases h₂ with
    | settled _ => exact ⟨rfl, rfl⟩
    | consume h' _ => simp [h] at h'
  | consume h _ ih =>
    cases h₂ with
    | settled h' => simp [h] at h'
    | consume h' hr' =>
      obtain ⟨rfl, rfl⟩ := Prod.mk.inj (Option.some.inj (h.symm.trans h'))
      obtain ⟨rfl, rfl⟩ := ih hr'
      exact ⟨rfl, rfl⟩

/-- R71 for the source: to drain, receive more and drain again is to drain all the bytes at once. -/
theorem receive {bs : List Byte} (h₁ : d.DrainsTo es₁ d₁) (h₂ : (d₁.receive bs).DrainsTo es₂ d₂) :
    (d.receive bs).DrainsTo (es₁ ++ es₂) d₂ := by
  induction h₁ with
  | settled _ => exact h₂
  | consume h _ ih =>
    rw [List.append_assoc]
    exact .consume (Source.consume?_receive h bs) (ih h₂)

end Source.DrainsTo

/-- The `feed` calls of a settled decoder drain the whole stream, whatever its chunks. -/
theorem Source.drainsTo_feedAll {d : Source} (h : d.consume? = none) (chunks : List (List Byte)) :
    (d.receive chunks.flatten).DrainsTo (d.feedAll chunks).1 (d.feedAll chunks).2 := by
  induction chunks generalizing d with
  | nil => simpa [Source.feedAll] using DrainsTo.settled h
  | cons c cs ih =>
    have hc := d.drainsTo_feed c
    rw [List.flatten_cons, ← Source.receive_receive]
    exact hc.receive (ih hc.consume?_eq_none)

/-! ### The line registers (R31) -/

/-- `mpos` and `mdead` describe the bytes of the line in progress: `MARKER`'s first `mpos` bytes, or a line that `MARKER`
does not begin with. -/
def State.TracksLine (s : State) (line : List Byte) : Prop :=
  (s.mdead = false ∧ s.mpos.toNat ≤ 6 ∧ line = marker.take s.mpos.toNat) ∨ (s.mdead = true ∧ ¬ line <+: marker)

/-- A list begins with its first `k` elements and one more exactly when that one is the next. -/
theorem take_append_singleton_prefix_iff {α : Type} {l : List α} {k : Nat} (hk : k ≤ l.length) (b : α) :
    l.take k ++ [b] <+: l ↔ l[k]? = some b := by
  rw [List.prefix_iff_eq_take, List.length_append, List.length_take_of_le hk, List.length_singleton,
    List.take_add_one, List.append_cancel_left_eq]
  cases l[k]? <;> simp [eq_comm]

namespace State.TracksLine

variable {s : State} {line : List Byte}

/-- With its `LF`, the line equals `MARKER` exactly when the registers say so. -/
theorem lineIsMarker_iff (h : s.TracksLine line) : s.lineIsMarker = true ↔ line ++ [lf] = marker := by
  rw [State.lineIsMarker_iff]
  obtain ⟨hd, hk, rfl⟩ | ⟨hd, hp⟩ := h
  · constructor
    · rintro ⟨-, h6⟩
      rw [h6]
      rfl
    · intro he
      have := congrArg List.length he
      simp [marker] at this
      exact ⟨hd, by omega⟩
  · simp only [hd, Bool.true_eq_false, false_and, false_iff]
    exact fun he => hp ⟨[lf], he⟩

/-- A byte other than `LF` leaves a line that `MARKER` begins with exactly when the registers say so. -/
theorem continuesMarker_iff (h : s.TracksLine line) {b : Byte} (hb : b ≠ lf) :
    s.continuesMarker b = true ↔ line ++ [b] <+: marker := by
  rw [State.continuesMarker_iff]
  obtain ⟨hd, hk, rfl⟩ | ⟨hd, hp⟩ := h
  · rw [take_append_singleton_prefix_iff (show s.mpos.toNat ≤ 7 by omega)]
    refine ⟨fun hc => hc.2.2, fun he => ⟨hd, ?_, he⟩⟩
    by_contra h6
    have h6 : s.mpos.toNat = 6 := by omega
    rw [h6] at he
    exact hb (Option.some.inj he).symm
  · simp only [hd, Bool.true_eq_false, false_and, false_iff]
    exact fun he => hp ((List.prefix_append line [b]).trans he)

/-- The extended line, where the byte continues it. -/
theorem extend (h : s.TracksLine line) {b : Byte} (hc : s.continuesMarker b = true) :
    s.extendLine.TracksLine (line ++ [b]) := by
  obtain ⟨hd, hk, hb⟩ := (s.continuesMarker_iff b).mp hc
  have hpos : (s.mpos + 1#3).toNat = s.mpos.toNat + 1 := by bv_omega
  obtain ⟨-, -, rfl⟩ | ⟨hd', -⟩ := h
  · refine .inl ⟨hd, ?_, ?_⟩
    · rw [State.extendLine_mpos]
      omega
    · rw [State.extendLine_mpos, hpos, List.take_add_one, hb, Option.toList_some]
  · simp [hd] at hd'

end State.TracksLine

/-- At the start of a line its bytes are none. -/
theorem State.tracksLine_nil {s : State} (hp : s.mpos = 0#3) (hd : s.mdead = false) : s.TracksLine [] :=
  .inl ⟨hd, by simp [hp], by simp [hp]⟩

/-! ### The SFS follows the source's decoder -/

/-- The registers of the SFS describe the source's decoder: its mode, and the bytes it has not consumed. -/
inductive State.Follows (s : State) : Source → Prop
  | line {buf : List Byte} (hm : s.mode = .M) (hc : s.pcount = 0#10) (hl : s.TracksLine buf) (hn : lf ∉ buf) :
      Follows s ⟨.M, buf⟩
  | payload {buf : List Byte} (hm : s.mode = .P) (hp : s.mpos = 0#3) (hd : s.mdead = false)
      (hc : s.pcount.toNat = buf.length) (hlt : buf.length < 576)
      (hb : ∀ k < buf.length, Memory.get? s.pbuf k = buf[k]?) : Follows s ⟨.P, buf⟩

theorem State.reset_follows (ins : List Input) : (State.reset.present ins).Follows Source.start :=
  .line rfl rfl (State.tracksLine_nil rfl rfl) List.not_mem_nil

/-- A decoder that the SFS follows has consumed what it can. -/
theorem State.Follows.consume?_eq_none {s : State} {d : Source} (h : s.Follows d) : d.consume? = none := by
  cases h with
  | line _ _ _ hn => rw [Source.consume?_line, readLine?_eq_none_iff.mpr hn, Option.map_none]
  | payload _ _ _ _ hlt _ => exact Source.consume?_payload_short hlt

theorem State.Follows.mode_eq {s : State} {d : Source} (h : s.Follows d) : s.mode = d.mode := by
  cases h <;> assumption

/-- The pulse and the coming inputs are no part of what the SFS has to follow. -/
theorem State.Follows.of_same {s t : State} {d : Source} (h : s.Follows d) (hst : s.SameButPulse t) :
    t.Follows d := by
  obtain ⟨hmode, hmpos, hmdead, hpcount, hpbuf, -⟩ := hst
  cases h with
  | line hm hc hl hn =>
    refine .line (hmode ▸ hm) (hpcount ▸ hc) ?_ hn
    rw [State.TracksLine] at hl ⊢
    rwa [← hmpos, ← hmdead]
  | payload hm hp hd hc hlt hb =>
    exact .payload (hmode ▸ hm) (hmpos ▸ hp) (hmdead ▸ hd) (hpcount ▸ hc) hlt (hpbuf ▸ hb)

/-- The bytes that one input delivers. -/
def Input.bytes (i : Input) : List Byte := if i.delivers then [i.inData] else []

theorem deliveredBytes_cons_bytes (i : Input) (ins : List Input) :
    deliveredBytes (i :: ins) = i.bytes ++ deliveredBytes ins := deliveredBytes_cons i ins

theorem Input.bytes_of_idle {i : Input} (hv : i.inValid = false) : i.bytes = [] := by
  simp [Input.bytes, Input.delivers, hv]

theorem Input.bytes_of_byte {i : Input} (hr : i.rst = false) (hv : i.inValid = true) : i.bytes = [i.inData] := by
  simp [Input.bytes, Input.delivers, hr, hv]

/-- The SFS goes one step, `d` receives the bytes `bs`, both emit the same, and the SFS follows on. -/
def State.StepFollows (s : State) (d : Source) (bs : List Byte) : Prop :=
  ∃ (s' : State) (e : Option Spectrum) (d' : Source), step s = .next s' ∧ s'.inputs = s.inputs.tail ∧
    s'.emitted = .next e ∧ (d.receive bs).DrainsTo e.toList d' ∧ s'.Follows d'

/-- A step without an emission, where the decoder has consumed nothing but what it just received. -/
theorem State.stepFollows_of_settled {s s' : State} {d : Source} {bs : List Byte} (hs : step s = .next s')
    (hi : s'.inputs = s.inputs.tail) (hv : s'.outValid = false) (hf : s'.Follows (d.receive bs)) :
    s.StepFollows d bs :=
  ⟨s', none, _, hs, hi, State.emitted_of_no_pulse hv, .settled hf.consume?_eq_none, hf⟩

/-- A step without an emission, where the decoder reads a line. -/
theorem State.stepFollows_of_line {s s' : State} {d d' : Source} {bs : List Byte} (hs : step s = .next s')
    (hi : s'.inputs = s.inputs.tail) (hv : s'.outValid = false) (hc : (d.receive bs).consume? = some (d', none))
    (hf : s'.Follows d') : s.StepFollows d bs :=
  ⟨s', none, d', hs, hi, State.emitted_of_no_pulse hv, .consume hc (.settled hf.consume?_eq_none), hf⟩

/-- R57: an idle step. -/
theorem State.Follows.step_idle {s : State} {d : Source} (h : s.Follows d) (hr : s.nextInput.rst = false)
    (hv : s.nextInput.inValid = false) : s.StepFollows d [] := by
  refine State.stepFollows_of_settled (Machine.step_idle hr hv) rfl rfl ?_
  rw [Source.receive_nil]
  exact h.of_same ⟨rfl, rfl, rfl, rfl, rfl, rfl⟩

/-- R58: the `LF` of a line. The decoder reads the line and compares it whole. -/
theorem State.Follows.step_mLf {s : State} {buf : List Byte} (h : s.Follows ⟨.M, buf⟩)
    (hr : s.nextInput.rst = false) (hv : s.nextInput.inValid = true) (hd : s.nextInput.inData = lf) :
    s.StepFollows ⟨.M, buf⟩ [lf] := by
  obtain ⟨hm, hc, hl, hn⟩ | _ := h
  have hstep := Machine.step_mLf hm hr hv hd
  have hline : s.consumeInput.lineIsMarker = true ↔ buf ++ [lf] = marker := hl.lineIsMarker_iff
  have hconsume : (Source.mk .M (buf ++ [lf])).consume? =
      some (⟨if buf ++ [lf] = marker then .P else .M, []⟩, none) := by
    rw [Source.consume?_line, readLine?_append_lf hn, Option.map_some]
  by_cases he : buf ++ [lf] = marker
  · rw [if_pos he] at hconsume
    exact State.stepFollows_of_line (hstep.trans (if_pos (hline.mpr he))) rfl rfl hconsume
      (.payload rfl rfl rfl (by simp [hc]) (by simp) (by simp))
  · rw [if_neg he] at hconsume
    exact State.stepFollows_of_line (hstep.trans (if_neg (mt hline.mp he))) rfl rfl hconsume
      (.line hm hc (State.tracksLine_nil rfl rfl) List.not_mem_nil)

/-- R59: another byte of a line. -/
theorem State.Follows.step_mChr {s : State} {buf : List Byte} (h : s.Follows ⟨.M, buf⟩)
    (hr : s.nextInput.rst = false) (hv : s.nextInput.inValid = true) (hd : s.nextInput.inData ≠ lf) :
    s.StepFollows ⟨.M, buf⟩ [s.nextInput.inData] := by
  obtain ⟨hm, hc, hl, hn⟩ | _ := h
  have hn' : lf ∉ buf ++ [s.nextInput.inData] := by simpa [hn] using hd.symm
  have hstep := Machine.step_mChr hm hr hv hd
  by_cases hcm : s.continuesMarker s.nextInput.inData = true
  · exact State.stepFollows_of_settled (hstep.trans (if_pos hcm)) rfl rfl (.line hm hc (hl.extend hcm) hn')
  · have hdead : ¬ buf ++ [s.nextInput.inData] <+: marker := mt (hl.continuesMarker_iff hd).mpr hcm
    exact State.stepFollows_of_settled (hstep.trans (if_neg hcm)) rfl rfl (.line hm hc (.inr ⟨rfl, hdead⟩) hn')

/-- R62: the buffer with one more payload byte holds the bytes with it. -/
theorem get?_put_of_held {m : Memory} {buf : List Byte} (hb : ∀ k < buf.length, Memory.get? m k = buf[k]?)
    (b : Byte) {k : Nat} (hk : k < (buf ++ [b]).length) :
    Memory.get? (Memory.put buf.length b m) k = (buf ++ [b])[k]? := by
  rw [List.length_append, List.length_singleton] at hk
  by_cases he : k = buf.length
  · simp [he]
  · rw [Memory.get?_put_other _ _ he, hb k (by omega), List.getElem?_append_left (by omega)]

/-- R62, R66: a payload byte. The last of a frame is emitted by both. -/
theorem State.Follows.step_pByte {s : State} {buf : List Byte} (h : s.Follows ⟨.P, buf⟩)
    (hr : s.nextInput.rst = false) (hv : s.nextInput.inValid = true) :
    s.StepFollows ⟨.P, buf⟩ [s.nextInput.inData] := by
  obtain _ | ⟨hm, hp, hd, hc, hlt, hb⟩ := h
  have hheld {k : Nat} := get?_put_of_held hb s.nextInput.inData (k := k)
  have hlen : (buf ++ [s.nextInput.inData]).length = buf.length + 1 := by simp
  have hstep := Machine.step_pByte hm hr hv
  by_cases hlast : buf.length = 575
  · obtain ⟨f, hf⟩ : ∃ f : Frame, f.toList = buf ++ [s.nextInput.inData] :=
      ⟨⟨(buf ++ [s.nextInput.inData]).toArray, by simp [hlast]⟩, by simp⟩
    have hread : readFrame (Memory.put 575 s.nextInput.inData s.pbuf) = .next f := by
      refine readFrame_eq_next.mpr fun k hk => ?_
      rw [← hlast, hheld (by rw [hlen, hlast]; exact hk), ← hf, Vector.getElem?_toList]
    have hconsume : (Source.mk .P (buf ++ [s.nextInput.inData])).consume? = some (⟨.M, []⟩, some (unpack f)) := by
      rw [← hf, ← List.append_nil f.toList, Source.consume?_frame]
    refine ⟨_, some (unpack f), ⟨.M, []⟩, hstep.trans (execPByte_emit (hc.trans hlast) hread), rfl,
      State.emitted_of_pulse rfl rfl, .consume hconsume (.settled rfl), ?_⟩
    exact .line rfl rfl (State.tracksLine_nil hp hd) List.not_mem_nil
  · have hcap : s.consumeInput.pcount.toNat < 575 := by rw [State.consumeInput_pcount]; omega
    have hlt' : (buf ++ [s.nextInput.inData]).length < 576 := by omega
    refine State.stepFollows_of_settled (hstep.trans (execPByte_capture _ hcap)) rfl rfl
      (.payload hm hp hd ?_ hlt' ?_)
    · rw [hlen, ← hc]
      exact State.countPayload_pcount_toNat hcap
    · intro k hk
      have := hheld hk
      rwa [← hc] at this

/-- Every step without a reset follows what the decoder does with the bytes of its input. -/
theorem State.Follows.step {s : State} {d : Source} (h : s.Follows d) (hr : s.nextInput.rst = false) :
    s.StepFollows d s.nextInput.bytes := by
  cases hv : s.nextInput.inValid with
  | false => exact Input.bytes_of_idle hv ▸ h.step_idle hr hv
  | true =>
    rw [Input.bytes_of_byte hr hv]
    obtain ⟨m, buf⟩ := d
    cases m with
    | M =>
      by_cases hd : s.nextInput.inData = lf
      · exact hd ▸ h.step_mLf hr hv hd
      · exact h.step_mChr hr hv hd
    | P => exact h.step_pByte hr hv

theorem State.nextInput_of_inputs {s : State} {i : Input} {rest : List Input} (h : s.inputs = i :: rest) :
    s.nextInput = i := by
  simp [State.nextInput, h]

/-- A run without a reset emits what the decoder emits over the delivered bytes, and follows it to the end. -/
theorem State.Follows.run {ins : List Input} {s : State} {d : Source} (h : s.Follows d) (hi : s.inputs = ins)
    (hr : NoReset ins) (t : Nat) :
    ∃ (o : Observation) (d' : Source), observeSteps ins.length t s = .next o ∧
      (d.receive (deliveredBytes ins)).DrainsTo (spectraOf o.emissions) d' ∧ o.final.Follows d' := by
  induction ins generalizing s d t with
  | nil => exact ⟨⟨[], s⟩, d, rfl, by simpa [spectraOf] using .settled h.consume?_eq_none, h⟩
  | cons i ins ih =>
    obtain ⟨hri, hrest⟩ := List.forall_mem_cons.mp hr
    have hnext : s.nextInput = i := State.nextInput_of_inputs hi
    obtain ⟨s', e, d₁, hstep, hinputs, hemitted, hdrain, hf⟩ := h.step (hnext ▸ hri)
    rw [hi, List.tail_cons] at hinputs
    obtain ⟨o, d₂, hobs, hdrain', hfinal⟩ := ih hf hinputs hrest (t + 1)
    refine ⟨o.withStep t e, d₂, observeSteps_succ_eq_next.mpr ⟨s', e, o, hstep, hemitted, hobs, rfl⟩, ?_, ?_⟩
    · rw [Observation.spectraOf_withStep, deliveredBytes_cons_bytes, ← Source.receive_receive, ← hnext]
      exact hdrain.receive hdrain'
    · rwa [Observation.withStep_final]

/-! ### The statements -/

/-- Settles O8, by evaluating the parameters. -/
theorem parametersMeetTheirConstraints : Obligations.ParametersMeetTheirConstraints := by
  have noLfBefore : ∀ k : Nat, k < markerLen - 1 → marker[k]? ≠ some lf := by decide
  exact ⟨rfl, rfl, rfl, by decide, rfl, rfl, noLfBefore⟩

/-- Settles O48: the run and the `feed` calls both drain the whole stream, and there is one way to drain it. -/
theorem emitsWhatTheSourceEmits : Obligations.EmitsWhatTheSourceEmits := by
  intro chunks ins hr hbytes
  have hstart := State.reset_follows ins
  obtain ⟨o, d', hobs, hrun, hfinal⟩ := hstart.run rfl hr 0
  have hfeed := Source.drainsTo_feedAll hstart.consume?_eq_none chunks
  rw [State.present_inputs, hbytes] at hrun
  obtain ⟨hes, rfl⟩ := hrun.unique hfeed
  exact ⟨o, hobs, hes, hfinal.mode_eq⟩

end Sys2Proof.Machine
end

section
/-! Statements of spec/10_state.md. The layers are: everything a step that goes on can do, the registers one clause at a
time, runs that emit nothing, and the statements. -/

namespace Sys2Proof.Machine

open Sys2Proof.Config

/-! ### Everything a step can do (R83) -/

theorem selectOp_reset (mode : Mode) (v : Bool) (d : Byte) : selectOp (formWord true mode v d) = some .reset := by
  revert d
  cases mode <;> cases v <;> decide

/-- R83: reset wins, whatever else the pins carry. -/
theorem step_reset {s : State} (hr : s.nextInput.rst = true) : step s = .next s.consumeInput.clear := by
  have hw : s.decodeWord = formWord true s.mode s.nextInput.inValid s.nextInput.inData := by
    rw [State.decodeWord, hr]
  rw [step_of_selectOp (hw ▸ selectOp_reset _ _ _)]
  rfl

/-- Everything `execPByte` can answer with a value: the byte is captured, or it is the last and the frame is emitted. -/
theorem execPByte_cases {b : Byte} {s t : State} (h : execPByte b s = .next t) :
    (s.pcount.toNat < 575 ∧
      t = (s.setPbuf (Memory.put s.pcount.toNat b s.pbuf)).countPayload.clearValid) ∨
    (s.pcount.toNat = 575 ∧ ∃ f : Frame, readFrame (Memory.put 575 b s.pbuf) = .next f ∧
      t = (s.setPbuf (Memory.put 575 b s.pbuf)).emit (unpack f)) := by
  obtain ⟨m, hm, ht⟩ := andThen_eq_next.mp h
  obtain ⟨ha, rfl⟩ := memWrite_eq_next.mp hm
  have ha : s.pcount.toNat < 576 := ha
  split at ht
  · rename_i hl
    have hlast := s.lastPayload_iff.mp hl
    obtain ⟨f, hf, ht⟩ := andThen_eq_next.mp ht
    rw [hlast] at hf ht
    exact .inr ⟨hlast, f, hf, (Host.Outcome.next.inj ht).symm⟩
  · rename_i hl
    rw [State.lastPayload_iff] at hl
    exact .inl ⟨by omega, (Host.Outcome.next.inj ht).symm⟩

/-- `s.StepsTo t`: the operations of R91, R57, R58, R59 and R62, each with the pins and registers it runs under, and the
state it leaves. -/
inductive State.StepsTo (s : State) : State → Prop
  | reset (hr : s.nextInput.rst = true) : StepsTo s s.consumeInput.clear
  | idle (hr : s.nextInput.rst = false) (hv : s.nextInput.inValid = false) : StepsTo s s.consumeInput.clearValid
  | markerLine (hm : s.mode = .M) (hr : s.nextInput.rst = false) (hv : s.nextInput.inValid = true)
      (hd : s.nextInput.inData = lf) (hl : s.lineIsMarker = true) :
      StepsTo s s.consumeInput.enterPayload.startLine.clearValid
  | otherLine (hm : s.mode = .M) (hr : s.nextInput.rst = false) (hv : s.nextInput.inValid = true)
      (hd : s.nextInput.inData = lf) (hl : ¬ s.lineIsMarker = true) : StepsTo s s.consumeInput.startLine.clearValid
  | extend (hm : s.mode = .M) (hr : s.nextInput.rst = false) (hv : s.nextInput.inValid = true)
      (hd : s.nextInput.inData ≠ lf) (hc : s.continuesMarker s.nextInput.inData = true) :
      StepsTo s s.consumeInput.extendLine.clearValid
  | kill (hm : s.mode = .M) (hr : s.nextInput.rst = false) (hv : s.nextInput.inValid = true)
      (hd : s.nextInput.inData ≠ lf) (hc : ¬ s.continuesMarker s.nextInput.inData = true) :
      StepsTo s s.consumeInput.killLine.clearValid
  | capture (hm : s.mode = .P) (hr : s.nextInput.rst = false) (hv : s.nextInput.inValid = true)
      (hc : s.pcount.toNat < 575) :
      StepsTo s (s.consumeInput.setPbuf (Memory.put s.pcount.toNat s.nextInput.inData s.pbuf)).countPayload.clearValid
  | emit {f : Frame} (hm : s.mode = .P) (hr : s.nextInput.rst = false) (hv : s.nextInput.inValid = true)
      (hc : s.pcount.toNat = 575) (hf : readFrame (Memory.put 575 s.nextInput.inData s.pbuf) = .next f) :
      StepsTo s ((s.consumeInput.setPbuf (Memory.put 575 s.nextInput.inData s.pbuf)).emit (unpack f))

theorem State.StepsTo.step_eq {s t : State} (h : s.StepsTo t) : step s = .next t := by
  cases h with
  | reset hr => exact step_reset hr
  | idle hr hv => exact step_idle hr hv
  | markerLine hm hr hv hd hl => exact (step_mLf hm hr hv hd).trans (if_pos hl)
  | otherLine hm hr hv hd hl => exact (step_mLf hm hr hv hd).trans (if_neg hl)
  | extend hm hr hv hd hc => exact (step_mChr hm hr hv hd).trans (if_pos hc)
  | kill hm hr hv hd hc => exact (step_mChr hm hr hv hd).trans (if_neg hc)
  | capture hm hr hv hc => exact (step_pByte hm hr hv).trans (execPByte_capture _ hc)
  | emit hm hr hv hc hf => exact (step_pByte hm hr hv).trans (execPByte_emit hc hf)

/-- A step has one outcome. -/
theorem State.StepsTo.of_step {s t u : State} (h : s.StepsTo u) (hstep : step s = .next t) : s.StepsTo t := by
  obtain rfl := Host.Outcome.next.inj (h.step_eq.symm.trans hstep)
  exact h

/-- The relation is `step`. -/
theorem step_eq_next_iff {s t : State} : step s = .next t ↔ s.StepsTo t := by
  refine ⟨fun h => ?_, State.StepsTo.step_eq⟩
  cases hr : s.nextInput.rst with
  | true => exact (State.StepsTo.reset hr).of_step h
  | false =>
    cases hv : s.nextInput.inValid with
    | false => exact (State.StepsTo.idle hr hv).of_step h
    | true =>
      cases hm : s.mode with
      | M =>
        by_cases hd : s.nextInput.inData = lf
        · by_cases hl : s.lineIsMarker = true
          · exact (State.StepsTo.markerLine hm hr hv hd hl).of_step h
          · exact (State.StepsTo.otherLine hm hr hv hd hl).of_step h
        · by_cases hc : s.continuesMarker s.nextInput.inData = true
          · exact (State.StepsTo.extend hm hr hv hd hc).of_step h
          · exact (State.StepsTo.kill hm hr hv hd hc).of_step h
      | P =>
        obtain ⟨hc, rfl⟩ | ⟨hc, f, hf, rfl⟩ := execPByte_cases ((step_pByte hm hr hv).symm.trans h)
        · exact .capture hm hr hv hc
        · exact .emit hm hr hv hc hf

namespace State.StepsTo

variable {s t : State}

theorem inputs_eq (h : s.StepsTo t) : t.inputs = s.inputs.tail := by cases h <;> rfl

/-! ### The output (R25, R26) -/

/-- The pulse is up after an emission and after no other step. -/
theorem outValid_iff_emits (h : s.StepsTo t) : t.outValid = true ↔ s.Emits := by
  cases h with
  | reset hr => simp [State.Emits, hr]
  | idle hr hv => simp [State.Emits, hv]
  | markerLine hm | otherLine hm | extend hm | kill hm => simp [State.Emits, hm]
  | capture hm hr hv hc => simp [State.Emits, hc.ne]
  | emit hm hr hv hc => simp [State.Emits, hm, hr, hv, hc]

theorem outSpec_of_reset (h : s.StepsTo t) (hr : s.nextInput.rst = true) : t.outSpec = none := by
  cases h with
  | reset => rfl
  | idle hr' | markerLine _ hr' | otherLine _ hr' | extend _ hr' | kill _ hr' | capture _ hr' | emit _ hr' =>
    simp [hr] at hr'

/-- An emission writes the unpack of the frame that it leaves in the buffer. -/
theorem outSpec_of_emits (h : s.StepsTo t) (he : s.Emits) :
    ∃ f : Frame, readFrame t.pbuf = .next f ∧ t.outSpec = some (unpack f) := by
  have hpulse := h.outValid_iff_emits.mpr he
  cases h with
  | emit _ _ _ _ hf => exact ⟨_, hf, rfl⟩
  | reset | idle | markerLine | otherLine | extend | kill | capture => simp at hpulse

theorem outSpec_of_no_emission (h : s.StepsTo t) (hr : s.nextInput.rst = false) (he : ¬ s.Emits) :
    t.outSpec = s.outSpec := by
  cases h with
  | reset hr' => simp [hr] at hr'
  | emit hm hr hv hc => exact absurd ⟨hm, hr, hv, hc⟩ he
  | idle | markerLine | otherLine | extend | kill | capture => rfl

/-! ### The clauses of R30, one at a time -/

/-- R30 (a). -/
theorem keeps_markerModeCountsNothing (h : s.StepsTo t) (ha : s.MarkerModeCountsNothing) :
    t.MarkerModeCountsNothing := by
  cases h with
  | reset | emit => exact fun _ => rfl
  | idle | otherLine | extend | kill => exact ha
  | markerLine => exact (nomatch ·)
  | capture hm => exact fun hm' => absurd (hm'.symm.trans hm) (by decide)

/-- R30 (b). -/
theorem keeps_payloadModeHasNoLine (h : s.StepsTo t) (hb : s.PayloadModeHasNoLine) : t.PayloadModeHasNoLine := by
  cases h with
  | reset | markerLine | otherLine => exact fun _ => ⟨rfl, rfl⟩
  | idle | capture => exact hb
  | extend hm | kill hm => exact fun hm' => absurd (hm.symm.trans hm') (by decide)
  | emit => exact (nomatch ·)

/-- R30 (c), (d). -/
theorem keeps_countersInRange (h : s.StepsTo t) (hn : s.CountersInRange) : t.CountersInRange := by
  obtain ⟨hpos, hcount⟩ := hn
  cases h with
  | reset => exact ⟨Nat.zero_le _, Nat.zero_le _⟩
  | idle => exact ⟨hpos, hcount⟩
  | markerLine | otherLine | kill => exact ⟨Nat.zero_le _, hcount⟩
  | extend _ _ _ _ hc =>
    obtain ⟨-, hlt, -⟩ := (s.continuesMarker_iff _).mp hc
    have hsucc : (s.mpos + 1#3).toNat ≤ 6 := by bv_omega
    exact ⟨hsucc, hcount⟩
  | capture _ _ _ hc =>
    have hsucc : (s.pcount + 1#10).toNat ≤ 575 := by bv_omega
    exact ⟨hpos, hsucc⟩
  | emit => exact ⟨hpos, Nat.zero_le _⟩

/-- R30 (e): a marker line enters mode `P` with nothing counted, and a captured byte fills the entry it counts. -/
theorem keeps_capturedBytesHeld (h : s.StepsTo t) (ha : s.MarkerModeCountsNothing) (he : s.CapturedBytesHeld) :
    t.CapturedBytesHeld := by
  cases h with
  | reset | emit => exact (nomatch ·)
  | idle | otherLine | extend | kill => exact he
  | markerLine hm => simp [State.CapturedBytesHeld, ha hm]
  | capture hm _ _ hc =>
    intro _ a hlt
    have hcount : (s.pcount + 1#10).toNat = s.pcount.toNat + 1 := State.countPayload_pcount_toNat hc
    simp only [State.clearValid_pcount, State.countPayload_pcount, State.setPbuf_pcount, State.consumeInput_pcount,
      hcount] at hlt
    simp only [State.clearValid_pbuf, State.countPayload_pbuf, State.setPbuf_pbuf, Memory.get?_put]
    split
    · rfl
    · exact he hm a (by omega)

/-- R30 (f). -/
theorem keeps_deadLineCountsNothing (h : s.StepsTo t) (hf : s.DeadLineCountsNothing) : t.DeadLineCountsNothing := by
  cases h with
  | reset | markerLine | otherLine | kill => exact fun _ => rfl
  | idle | capture | emit => exact hf
  | extend _ _ _ _ hc =>
    obtain ⟨hlive, -⟩ := (s.continuesMarker_iff _).mp hc
    exact fun hdead => absurd (hlive.symm.trans hdead) (by decide)

/-- R26, R66: an emission leaves mode `P`, where no line is in progress. -/
theorem pulseFollowsEmission (h : s.StepsTo t) (hb : s.PayloadModeHasNoLine) : t.PulseFollowsEmission := by
  cases h with
  | reset | idle | markerLine | otherLine | extend | kill | capture => exact (nomatch ·)
  | emit hm => exact fun _ => ⟨rfl, rfl, hb hm⟩

/-- R34. -/
theorem keeps_wf (h : s.StepsTo t) (hw : Memory.wf s.pbuf) : Memory.wf t.pbuf := by
  cases h with
  | reset => exact Memory.wf_nil
  | idle | markerLine | otherLine | extend | kill => exact hw
  | capture _ _ _ hc => exact Memory.put_wf (show s.pcount.toNat < 576 by omega) hw
  | emit => exact Memory.put_wf (show 575 < 576 by omega) hw

end State.StepsTo

/-! ### Runs that emit nothing -/

/-- What holds of the state after the bytes `bs` is kept by every step without a reset that goes on to bytes that are
still `Allowed`, and no such step emits. -/
def KeptByBytes (Allowed : List Byte → Prop) (Inv : List Byte → State → Prop) : Prop :=
  ∀ (bs : List Byte) (s : State), Inv bs s → s.nextInput.rst = false → Allowed (bs ++ s.nextInput.bytes) →
    ∃ t : State, s.StepsTo t ∧ t.outValid = false ∧ Inv (bs ++ s.nextInput.bytes) t

/-- A run whose bytes stay allowed emits nothing and ends with what holds after them. -/
theorem KeptByBytes.run {Allowed : List Byte → Prop} {Inv : List Byte → State → Prop}
    (hk : KeptByBytes Allowed Inv) {ins : List Input} {bs : List Byte} {s : State} (h : Inv bs s)
    (hi : s.inputs = ins) (hr : NoReset ins)
    (hallowed : ∀ p : List Byte, p <+: deliveredBytes ins → Allowed (bs ++ p)) (t : Nat) :
    ∃ o : Observation, observeSteps ins.length t s = .next o ∧ o.emissions = [] ∧
      Inv (bs ++ deliveredBytes ins) o.final := by
  induction ins generalizing s bs t with
  | nil => exact ⟨⟨[], s⟩, rfl, rfl, by simpa using h⟩
  | cons i ins ih =>
    obtain ⟨hri, hrest⟩ := List.forall_mem_cons.mp hr
    obtain rfl : s.nextInput = i := State.nextInput_of_inputs hi
    rw [deliveredBytes_cons_bytes] at hallowed ⊢
    obtain ⟨s', hstep, hpulse, hinv⟩ := hk bs s h hri (hallowed _ (List.prefix_append _ _))
    have hinputs : s'.inputs = ins := by rw [hstep.inputs_eq, hi, List.tail_cons]
    obtain ⟨o, hobs, hnone, hfinal⟩ := ih hinv hinputs hrest
      (fun p hp => by simpa using hallowed _ ((List.prefix_append_right_inj _).mpr hp)) (t + 1)
    rw [List.append_assoc] at hfinal
    exact ⟨o, observeSteps_succ_eq_next.mpr
      ⟨s', none, o, step_eq_next_iff.mpr hstep, State.emitted_of_no_pulse hpulse, hobs, rfl⟩, hnone, hfinal⟩

/-- A run from the state `s` is a run after no bytes. -/
theorem KeptByBytes.observed {Allowed : List Byte → Prop} {Inv : List Byte → State → Prop}
    (hk : KeptByBytes Allowed Inv) {ins : List Input} {s : State} (h : Inv [] (s.present ins)) (hr : NoReset ins)
    (hallowed : ∀ p : List Byte, p <+: deliveredBytes ins → Allowed p) :
    ∃ o : Observation, observe s ins = .next o ∧ o.emissions = [] ∧ Inv (deliveredBytes ins) o.final :=
  hk.run h rfl hr hallowed 0

/-! ### The line registers over a run (R31) -/

/-- The current line is what stands after the last `LF`. -/
theorem eq_append_currentLine (bs : List Byte) :
    ∃ before, bs = before ++ currentLine bs ∧ (before = [] ∨ before.getLast? = some lf) := by
  induction bs using List.reverseRecOn with
  | nil => exact ⟨[], rfl, .inl rfl⟩
  | append_singleton bs b ih =>
    rw [currentLine_append_byte]
    split
    · rename_i hb
      exact ⟨bs ++ [b], by simp, .inr (by simp [hb])⟩
    · obtain ⟨before, hbs, hstart⟩ := ih
      exact ⟨before, by rw [← List.append_assoc, ← hbs], hstart⟩

/-- An `LF` that makes the current line `MARKER` completes a marker line. -/
theorem endsMarkerLine_of_currentLine {bs : List Byte} (h : currentLine bs ++ [lf] = marker) :
    EndsMarkerLine (bs ++ [lf]) := by
  obtain ⟨before, hbs, hstart⟩ := eq_append_currentLine bs
  exact ⟨before, by rw [← h, ← List.append_assoc, ← hbs], hstart⟩

/-- What R31 says of the registers: they give the length of a line exactly when `MARKER` begins with it. -/
theorem State.TracksLine.registers_iff {s : State} {line : List Byte} (h : s.TracksLine line) (k : Nat) :
    (s.mdead = false ∧ s.mpos.toNat = k) ↔ (line.length = k ∧ k ≤ 6 ∧ line = marker.take k) := by
  obtain ⟨hd, hk, rfl⟩ | ⟨hd, hp⟩ := h
  · have hlen : (marker.take s.mpos.toNat).length = s.mpos.toNat :=
      List.length_take_of_le (show s.mpos.toNat ≤ 7 by omega)
    constructor
    · rintro ⟨-, rfl⟩
      exact ⟨hlen, hk, rfl⟩
    · rintro ⟨hl, -, -⟩
      exact ⟨hd, hlen.symm.trans hl⟩
  · constructor
    · rintro ⟨hlive, -⟩
      simp [hd] at hlive
    · rintro ⟨-, -, hl⟩
      exact absurd (hl ▸ List.take_prefix k marker) hp

/-- In mode `M`, with the line registers at the current line of `bs`. -/
def State.SearchesAfter (bs : List Byte) (s : State) : Prop := s.mode = .M ∧ s.TracksLine (currentLine bs)

/-- Bytes that complete no marker line keep the search going. -/
theorem keptByBytes_searchesAfter : KeptByBytes (fun bs => ¬ EndsMarkerLine bs) State.SearchesAfter := by
  rintro bs s ⟨hm, hl⟩ hr hno
  cases hv : s.nextInput.inValid with
  | false => exact ⟨_, .idle hr hv, rfl, hm, by rwa [Input.bytes_of_idle hv, List.append_nil]⟩
  | true =>
    rw [Input.bytes_of_byte hr hv] at hno ⊢
    by_cases hd : s.nextInput.inData = lf
    · rw [hd] at hno ⊢
      have hother : ¬ s.lineIsMarker = true := fun hlm =>
        hno (endsMarkerLine_of_currentLine (hl.lineIsMarker_iff.mp hlm))
      refine ⟨_, .otherLine hm hr hv hd hother, rfl, hm, ?_⟩
      rw [currentLine_append_byte, if_pos rfl]
      exact State.tracksLine_nil rfl rfl
    · have hline : currentLine (bs ++ [s.nextInput.inData]) = currentLine bs ++ [s.nextInput.inData] := by
        rw [currentLine_append_byte, if_neg hd]
      by_cases hc : s.continuesMarker s.nextInput.inData = true
      · exact ⟨_, .extend hm hr hv hd hc, rfl, hm, hline ▸ hl.extend hc⟩
      · exact ⟨_, .kill hm hr hv hd hc, rfl, hm, hline ▸ .inr ⟨rfl, mt (hl.continuesMarker_iff hd).mpr hc⟩⟩

/-! ### The payload over a run (R62, R98) -/

/-- `s` is `s₀` in mode `P` with the payload bytes `bs` captured since. -/
structure State.Captured (s₀ : State) (bs : List Byte) (s : State) : Prop where
  mode : s.mode = .P
  pcount : s.pcount.toNat = s₀.pcount.toNat + bs.length
  held : ∀ j < bs.length, Memory.get? s.pbuf (s₀.pcount.toNat + j) = bs[j]?
  below : ∀ a < s₀.pcount.toNat, Memory.get? s.pbuf a = Memory.get? s₀.pbuf a
  outSpec : s.outSpec = s₀.outSpec

/-- One more byte is captured behind the others. -/
theorem State.Captured.capture {s₀ s : State} {bs : List Byte} (h : s₀.Captured bs s) (hc : s.pcount.toNat < 575)
    (b : Byte) :
    s₀.Captured (bs ++ [b])
      (s.consumeInput.setPbuf (Memory.put s.pcount.toNat b s.pbuf)).countPayload.clearValid where
  mode := h.mode
  pcount := by
    rw [List.length_append, List.length_singleton, ← Nat.add_assoc, ← h.pcount]
    exact State.countPayload_pcount_toNat hc
  held := by
    intro j hj
    rw [List.length_append, List.length_singleton] at hj
    simp only [State.clearValid_pbuf, State.countPayload_pbuf, State.setPbuf_pbuf, Memory.get?_put, h.pcount]
    by_cases hlast : j = bs.length
    · simp [hlast]
    · rw [if_neg (by omega), h.held j (by omega), List.getElem?_append_left (by omega)]
  below := by
    intro a ha
    simp only [State.clearValid_pbuf, State.countPayload_pbuf, State.setPbuf_pbuf]
    rw [Memory.get?_put_other _ _ (by rw [h.pcount]; omega), h.below a ha]
  outSpec := h.outSpec

/-- Bytes that leave the frame incomplete are captured, and nothing is emitted. -/
theorem keptByBytes_captured (s₀ : State) :
    KeptByBytes (fun bs => s₀.pcount.toNat + bs.length ≤ 575) s₀.Captured := by
  intro bs s h hr hroom
  cases hv : s.nextInput.inValid with
  | false =>
    rw [Input.bytes_of_idle hv, List.append_nil]
    exact ⟨_, .idle hr hv, rfl, h.mode, h.pcount, h.held, h.below, h.outSpec⟩
  | true =>
    rw [Input.bytes_of_byte hr hv] at hroom ⊢
    have hc : s.pcount.toNat < 575 := by
      rw [List.length_append, List.length_singleton] at hroom
      rw [h.pcount]
      omega
    exact ⟨_, .capture h.mode hr hv hc, rfl, h.capture hc _⟩

/-! ### The statements -/

/-- Settles O38, a clause of the invariant at a time. -/
theorem stepKeepsLegal : Obligations.StepKeepsLegal := by
  rintro s t ⟨ha, hb, hn, he, hf, -, hw⟩ hstep
  have h := step_eq_next_iff.mp hstep
  exact ⟨h.keeps_markerModeCountsNothing ha, h.keeps_payloadModeHasNoLine hb, h.keeps_countersInRange hn,
    h.keeps_capturedBytesHeld ha he, h.keeps_deadLineCountsNothing hf, h.pulseFollowsEmission hb, h.keeps_wf hw⟩

/-- Settles O19: the registers track the current line at every step of the search. -/
theorem lineRegistersDescribeTheLine : Obligations.LineRegistersDescribeTheLine := by
  intro s ins hm hp hd hr hno
  have hstart : (s.present ins).SearchesAfter [] := ⟨hm, State.tracksLine_nil hp hd⟩
  obtain ⟨o, hobs, -, hmode, hline⟩ := keptByBytes_searchesAfter.observed hstart hr hno
  exact ⟨o, hobs, hmode, hline.registers_iff⟩

/-- Settles O34, by induction on the inputs: every byte is captured behind the others. -/
theorem payloadLandsInArrivalOrder : Obligations.PayloadLandsInArrivalOrder := by
  intro s ins hm hr hroom
  have hstart : s.Captured [] (s.present ins) := ⟨hm, rfl, by simp, fun _ _ => rfl, rfl⟩
  obtain ⟨o, hobs, hnone, hend⟩ := (keptByBytes_captured s).observed hstart hr fun p hp => by
    have := hp.length_le
    omega
  exact ⟨o, hobs, hnone, hend.mode, hend.pcount, hend.held, hend.below, hend.outSpec⟩

/-- Settles O35, by the cases of a step. -/
theorem pulseExactlyAfterEmission : Obligations.PulseExactlyAfterEmission :=
  ⟨rfl, fun _ _ hstep => (step_eq_next_iff.mp hstep).outValid_iff_emits⟩

/-- Settles O36, by the cases of a step. -/
theorem outSpecWrittenOnlyByEmissionOrReset : Obligations.OutSpecWrittenOnlyByEmissionOrReset := by
  refine ⟨rfl, fun s t hstep => ?_⟩
  have h := step_eq_next_iff.mp hstep
  exact ⟨h.outSpec_of_reset, h.outSpec_of_emits, h.outSpec_of_no_emission⟩

/-- Settles O13: the registers by evaluation, and the buffer because no entry of it is listed. -/
theorem resetStateValues : Obligations.ResetStateValues := by
  have hread : ∀ a : Nat, a ≤ 575 → memRead a State.reset.pbuf = .fault (.noValue (.pbuf a)) := by
    intro a ha
    have ha : a < frameBytes := show a < 576 by omega
    simp [memRead, ha]
  exact ⟨rfl, rfl, rfl, rfl, hread, rfl, rfl, rfl⟩

/-- Settles O37, by whether `out_spec` holds a Spectrum. -/
theorem outHaveSaysReadable : Obligations.OutHaveSaysReadable := by
  refine ⟨fun s sp hs => ⟨?_, State.readOutSpec_eq_next.mpr hs⟩, fun s hs => ?_, rfl⟩
  · rw [State.outHave, hs, Option.isSome_some]
  · have hfault : s.readOutSpec = .fault (.noValue .outSpec) := by rw [State.readOutSpec, hs]
    exact ⟨by rw [State.outHave, hs, Option.isSome_none], hfault, by rw [State.readOutBus, hfault, andThen_fault]⟩

/-- Settles O39: every clause is about mode `P`, a dead line or a pulse, or reads 0 or the empty buffer. -/
theorem resetIsLegal : Obligations.ResetIsLegal :=
  fun _ => ⟨fun _ => rfl, (nomatch ·), ⟨Nat.zero_le _, Nat.zero_le _⟩, (nomatch ·), (nomatch ·), (nomatch ·),
    Memory.wf_nil⟩

end Sys2Proof.Machine
end

section
/-! Statements of spec/20_memory.md. The layers are: what an access to the payload buffer answers, that every legal
state goes on, the flat bus, the order of emissions, the source's decoder over whole sessions, and the statements. -/

namespace Sys2Proof.Machine

open Sys2Proof.Config

/-! ### Accesses to the payload buffer (R35, R36, R37) -/

theorem memWrite_of_lt {a : Nat} (ha : a < frameBytes) (v : Byte) (m : Memory) :
    memWrite a v m = .next (Memory.put a v m) := if_pos ha

/-- R35: there is no such address to write. -/
theorem memWrite_refused {a : Nat} (ha : ¬ a < frameBytes) (v : Byte) (m : Memory) :
    memWrite a v m = .refused (.noSuchAddress a) := if_neg ha

theorem memRead_refused {a : Nat} (ha : ¬ a < frameBytes) (m : Memory) :
    memRead a m = .refused (.noSuchAddress a) := if_neg ha

/-- R37: an entry without a value. -/
theorem memRead_fault {a : Nat} {m : Memory} (ha : a < frameBytes) (hn : Memory.get? m a = none) :
    memRead a m = .fault (.noValue (.pbuf a)) := by
  rw [memRead, if_pos ha, hn]

/-- A read depends on the buffer through the entry at its address alone. -/
theorem memRead_congr {a : Nat} {m m' : Memory} (h : Memory.get? m a = Memory.get? m' a) :
    memRead a m = memRead a m' := by
  rw [memRead, memRead, h]

/-- A full buffer has a frame to read. -/
theorem exists_readFrame {m : Memory} (h : ∀ k < frameBytes, (Memory.get? m k).isSome = true) :
    ∃ f : Frame, readFrame m = .next f := by
  refine ⟨Vector.ofFn fun k : Fin frameBytes => (Memory.get? m k.val).get (h k.val k.isLt), ?_⟩
  refine readFrame_eq_next.mpr fun k hk => ?_
  rw [Vector.getElem?_eq_getElem hk, Vector.getElem_ofFn, Option.some_get]

/-! ### P_BYTE where it stops -/

theorem execPByte_refused (b : Byte) {s : State} (h : 575 < s.pcount.toNat) :
    execPByte b s = .refused (.noSuchAddress s.pcount.toNat) := by
  have hout : ¬ s.pcount.toNat < frameBytes := show ¬ s.pcount.toNat < 576 by omega
  rw [execPByte, memWrite_refused hout, andThen_refused]

/-- The emission's reads come first to the lowest entry without a value. -/
theorem execPByte_fault (b : Byte) {s : State} {k : Nat} (hc : s.pcount.toNat = 575) (hk : k < 575)
    (hn : Memory.get? s.pbuf k = none) (hb : ∀ j < k, (Memory.get? s.pbuf j).isSome = true) :
    execPByte b s = .fault (.noValue (.pbuf k)) := by
  have hput : ∀ j < 575, Memory.get? (Memory.put 575 b s.pbuf) j = Memory.get? s.pbuf j :=
    fun j hj => Memory.get?_put_other b s.pbuf hj.ne
  have hkf : k < frameBytes := show k < 576 by omega
  have hread : readFrame (Memory.put 575 b s.pbuf) = .fault (.noValue (.pbuf k)) :=
    readBytes_fault hkf hkf ((hput k hk).trans hn) fun j hj => by rw [hput j (by omega), hb j hj]
  rw [execPByte, hc, memWrite_of_lt (show 575 < 576 by omega), andThen_next, if_pos (s.lastPayload_iff.mpr hc), hread,
    andThen_fault]

/-! ### Legal states go on (R78) -/

/-- With the last byte of a frame the buffer is full, since a legal state has captured the others. -/
theorem State.CapturedBytesHeld.exists_readFrame {s : State} (he : s.CapturedBytesHeld) (hm : s.mode = .P)
    (hc : s.pcount.toNat = 575) (b : Byte) : ∃ f : Frame, readFrame (Memory.put 575 b s.pbuf) = .next f := by
  refine Machine.exists_readFrame fun k hk => ?_
  by_cases hlast : k = 575
  · rw [hlast, Memory.get?_put_same, Option.isSome_some]
  · have hbelow : k < 575 := Nat.lt_of_le_of_ne (Nat.le_of_lt_succ hk) hlast
    rw [Memory.get?_put_other _ _ hlast]
    exact he hm k (hc ▸ hbelow)

/-- Every legal state has a step that goes on. -/
theorem State.Legal.exists_stepsTo {s : State} (h : s.Legal) : ∃ t : State, s.StepsTo t := by
  obtain ⟨-, -, ⟨-, hcount⟩, he, -⟩ := h
  have hcount : s.pcount.toNat ≤ 575 := hcount
  cases hr : s.nextInput.rst with
  | true => exact ⟨_, .reset hr⟩
  | false =>
    cases hv : s.nextInput.inValid with
    | false => exact ⟨_, .idle hr hv⟩
    | true =>
      cases hm : s.mode with
      | M =>
        by_cases hd : s.nextInput.inData = lf
        · by_cases hl : s.lineIsMarker = true
          · exact ⟨_, .markerLine hm hr hv hd hl⟩
          · exact ⟨_, .otherLine hm hr hv hd hl⟩
        · by_cases hc : s.continuesMarker s.nextInput.inData = true
          · exact ⟨_, .extend hm hr hv hd hc⟩
          · exact ⟨_, .kill hm hr hv hd hc⟩
      | P =>
        by_cases hc : s.pcount.toNat = 575
        · obtain ⟨f, hf⟩ := he.exists_readFrame hm hc s.nextInput.inData
          exact ⟨_, .emit hm hr hv hc hf⟩
        · exact ⟨_, .capture hm hr hv (by omega)⟩

/-! ### What a step writes to the payload buffer (R34) -/

/-- A write changes no entry but its own. -/
theorem Memory.get?_put_ne {a c : Nat} {v : Byte} {m : Memory}
    (h : Memory.get? (Memory.put a v m) c ≠ Memory.get? m c) :
    c = a ∧ Memory.get? (Memory.put a v m) c = some v := by
  by_cases hc : c = a
  · exact ⟨hc, by rw [hc, Memory.get?_put_same]⟩
  · exact absurd (Memory.get?_put_other v m hc) h

/-- The one entry a step without a reset can change is the payload byte's. -/
theorem State.StepsTo.pbuf_changed {s t : State} (h : s.StepsTo t) (hr : s.nextInput.rst = false) {a : Nat}
    (hne : Memory.get? t.pbuf a ≠ Memory.get? s.pbuf a) :
    s.mode = .P ∧ s.nextInput.inValid = true ∧ a = s.pcount.toNat ∧
      Memory.get? t.pbuf a = some s.nextInput.inData := by
  cases h with
  | reset hr' => simp [hr] at hr'
  | idle | markerLine | otherLine | extend | kill => exact absurd rfl hne
  | capture hm _ hv _ => exact ⟨hm, hv, Memory.get?_put_ne hne⟩
  | emit hm _ hv hc _ =>
    obtain ⟨ha, hbyte⟩ := Memory.get?_put_ne hne
    exact ⟨hm, hv, ha.trans hc.symm, hbyte⟩

/-! ### The flat bus (R40) -/

/-- Bit `j` of sample `i` is bit `16*i+j` of the bus. -/
theorem flattenSpectrum_getLsbD (sp : Spectrum) (i : Fin 288) {j : Nat} (hj : j < 16) :
    (flattenSpectrum sp).getLsbD (16 * i.val + j) = sp[i.val].getLsbD j := by
  have hlane : (16 * i.val + j) / 16 = i.val := by omega
  have hbit : (16 * i.val + j) % 16 = j := by omega
  have hwidth : 16 * i.val + j < 4608 := by omega
  simp [flattenSpectrum, hwidth, hlane, hbit]

theorem flattenSpectrum_extractLsb' (sp : Spectrum) (i : Fin 288) :
    (flattenSpectrum sp).extractLsb' (16 * i.val) 16 = sp[i.val] := by
  refine BitVec.eq_of_getLsbD_eq fun j hj => ?_
  rw [BitVec.getLsbD_extractLsb', decide_eq_true hj, Bool.true_and, flattenSpectrum_getLsbD sp i hj]

/-! ### The steps of emissions (R76) -/

/-- The steps of the emissions rise strictly, from `t` on. -/
def Observation.RisesFrom (o : Observation) (t : Nat) : Prop :=
  o.emissions.Pairwise (fun e e' => e.time < e'.time) ∧ ∀ e ∈ o.emissions, t ≤ e.time

theorem Observation.RisesFrom.withStep {o : Observation} {t : Nat} (h : o.RisesFrom (t + 1)) (e : Option Spectrum) :
    (o.withStep t e).RisesFrom t := by
  obtain ⟨hrise, hfrom⟩ := h
  cases e with
  | none => exact ⟨hrise, fun e he => Nat.le_of_succ_le (hfrom e he)⟩
  | some sp =>
    exact ⟨List.pairwise_cons.mpr ⟨hfrom, hrise⟩,
      List.forall_mem_cons.mpr ⟨Nat.le_refl t, fun e he => Nat.le_of_succ_le (hfrom e he)⟩⟩

/-- A step makes at most one emission, so no two emissions share a step. -/
theorem observeSteps_risesFrom {n t : Nat} {s : State} {o : Observation} (h : observeSteps n t s = .next o) :
    o.RisesFrom t := by
  induction n generalizing t s o with
  | zero =>
    obtain rfl : ⟨[], s⟩ = o := Host.Outcome.next.inj h
    exact ⟨.nil, by simp⟩
  | succ n ih =>
    obtain ⟨s', e, o', -, -, hrest, rfl⟩ := observeSteps_succ_eq_next.mp h
    exact (ih hrest).withStep e

/-! ### The source's decoder over sessions (R46, R70) -/

/-- A complete line that is not `MARKER`. -/
def IsOtherLine (line : List Byte) : Prop :=
  line ≠ marker ∧ ∃ body : List Byte, line = body ++ [lf] ∧ lf ∉ body

/-- The bytes of one session: other lines, `MARKER`, a frame. -/
def sessionBytes (p : List (List Byte) × Frame) : List Byte := p.1.flatten ++ marker ++ p.2.toList

/-- A complete line at the head of the bytes is the line read. -/
theorem readLine?_line_append {body : List Byte} (h : lf ∉ body) (rest : List Byte) :
    readLine? (body ++ [lf] ++ rest) = some (body ++ [lf], rest) :=
  readLine?_append (readLine?_append_lf h) rest

namespace Source.DrainsTo

variable {d : Source} {es : List Spectrum} {rest : List Byte}

/-- A complete line is read, and decides the mode. -/
theorem read_line {body : List Byte} (hb : lf ∉ body)
    (h : (Source.mk (if body ++ [lf] = marker then .P else .M) rest).DrainsTo es d) :
    (Source.mk .M (body ++ [lf] ++ rest)).DrainsTo es d := by
  refine .consume (e := none) ?_ h
  rw [Source.consume?_line, readLine?_line_append hb, Option.map_some]

theorem marker_line (h : (Source.mk .P rest).DrainsTo es d) : (Source.mk .M (marker ++ rest)).DrainsTo es d :=
  read_line (body := marker.take 6) (by decide) h

/-- Other lines are discarded. -/
theorem other_lines {lines : List (List Byte)} (hl : ∀ line ∈ lines, IsOtherLine line)
    (h : (Source.mk .M rest).DrainsTo es d) : (Source.mk .M (lines.flatten ++ rest)).DrainsTo es d := by
  induction lines with
  | nil => exact h
  | cons line lines ih =>
    obtain ⟨⟨hne, body, rfl, hb⟩, hlines⟩ := List.forall_mem_cons.mp hl
    rw [List.flatten_cons, List.append_assoc]
    exact read_line hb (by rw [if_neg hne]; exact ih hlines)

theorem frame (f : Frame) (h : (Source.mk .M rest).DrainsTo es d) :
    (Source.mk .P (f.toList ++ rest)).DrainsTo (unpack f :: es) d :=
  .consume (Source.consume?_frame f rest) h

/-- Whole sessions are drained to the last byte, a frame's Spectrum for each. -/
theorem sessions {session : List (List (List Byte) × Frame)} (hl : ∀ p ∈ session, ∀ line ∈ p.1, IsOtherLine line) :
    (Source.mk .M (session.flatMap sessionBytes)).DrainsTo (session.map fun p => unpack p.2) ⟨.M, []⟩ := by
  induction session with
  | nil => exact .settled rfl
  | cons p session ih =>
    obtain ⟨hp, hsession⟩ := List.forall_mem_cons.mp hl
    rw [List.flatMap_cons, sessionBytes, List.append_assoc, List.append_assoc]
    exact other_lines hp (marker_line (frame p.2 (ih hsession)))

end Source.DrainsTo

/-! ### The start of a line -/

/-- At the start of a line the SFS follows a decoder with nothing buffered. -/
theorem State.AtLineStart.follows {s : State} (h : s.AtLineStart) : s.Follows Source.start := by
  obtain ⟨hm, hp, hd, hc⟩ := h
  exact .line hm hc (State.tracksLine_nil hp hd) List.not_mem_nil

/-- Registers that describe no bytes are those of the start of a line. -/
theorem State.TracksLine.of_nil {s : State} (h : s.TracksLine []) : s.mpos = 0#3 ∧ s.mdead = false := by
  obtain ⟨hd, hpos⟩ := (h.registers_iff 0).mpr ⟨rfl, Nat.zero_le 6, rfl⟩
  exact ⟨BitVec.eq_of_toNat_eq hpos, hd⟩

/-- Where the SFS follows a decoder with nothing buffered in mode `M`, the next byte starts a line. -/
theorem State.Follows.atLineStart {s : State} (h : s.Follows ⟨.M, []⟩) : s.AtLineStart := by
  obtain ⟨hm, hc, hl, -⟩ | _ := h
  obtain ⟨hp, hd⟩ := hl.of_nil
  exact ⟨hm, hp, hd, hc⟩

/-! ### The statements -/

/-- Settles O43: the source's decoder drains the sessions, the run emits what it emits, and no step emits twice. -/
theorem framesEmittedInArrivalOrder : Obligations.FramesEmittedInArrivalOrder := by
  intro s ins session hs hr hlines hbytes
  have hstart : (s.present ins).AtLineStart := hs
  obtain ⟨o, d, hobs, hrun, hfinal⟩ := hstart.follows.run rfl hr 0
  have hall : (Source.start.receive (deliveredBytes ins)).DrainsTo (session.map fun p => unpack p.2) ⟨.M, []⟩ := by
    rw [hbytes]
    exact .sessions hlines
  obtain ⟨hes, rfl⟩ := hrun.unique hall
  obtain ⟨hrise, -⟩ := observeSteps_risesFrom hobs
  exact ⟨o, hobs, hes, hrise, hfinal.atLineStart⟩

/-- Settles O11, by the cases of a step: no operation touches the inputs once the edge's is consumed. -/
theorem stepConsumesOneInput : Obligations.StepConsumesOneInput :=
  fun _ _ hstep => (step_eq_next_iff.mp hstep).inputs_eq

/-- Settles O23: a write in range is the entry a read finds, and out of range there is no address. -/
theorem writtenByteIsRead : Obligations.WrittenByteIsRead := by
  constructor
  · intro a v m ha
    have ha : a < frameBytes := Nat.lt_succ_of_le ha
    exact ⟨Memory.put a v m, memWrite_of_lt ha v m, memRead_eq_next.mpr ⟨ha, Memory.get?_put_same a v m⟩,
      fun c hc => memRead_congr (Memory.get?_put_other v m hc)⟩
  · intro a v m ha
    have ha : ¬ a < frameBytes := Nat.not_lt_of_le ha
    exact ⟨memWrite_refused ha v m, memRead_refused ha m⟩

/-- Settles O24: the read faults by its rule, and a legal state's step goes on. -/
theorem unwrittenEntryIsNeverRead : Obligations.UnwrittenEntryIsNeverRead := by
  refine ⟨fun a m ha hn => memRead_fault (Nat.lt_succ_of_le ha) hn, fun s hs f hfault => ?_⟩
  obtain ⟨t, ht⟩ := hs.exists_stepsTo
  exact nomatch ht.step_eq.symm.trans hfault

/-- Settles O25, by the cases of a step. -/
theorem onlyPByteWritesTheBuffer : Obligations.OnlyPByteWritesTheBuffer :=
  fun _ _ _ hstep hr hne => (step_eq_next_iff.mp hstep).pbuf_changed hr hne

/-- Settles O28: the write has no address, or the emission's reads reach the lowest entry without a value. -/
theorem payloadByteStopsOutsideLegalStates : Obligations.PayloadByteStopsOutsideLegalStates :=
  ⟨fun b _ hc => execPByte_refused b hc, fun b _ _ hc hk hn hb => execPByte_fault b hc hk hn hb⟩

/-- Settles O31: the bus is the flattened Spectrum, whose lane `i` is sample `i`. -/
theorem flatBusHoldsSampleAtItsLane : Obligations.FlatBusHoldsSampleAtItsLane := by
  intro s sp hs
  have hbus : s.readOutBus = .next (flattenSpectrum sp) := by
    rw [State.readOutBus, State.readOutSpec_eq_next.mpr hs, andThen_next]
  exact ⟨flattenSpectrum sp, hbus, flattenSpectrum_extractLsb' sp⟩

end Sys2Proof.Machine
end

section
/-! Statements of spec/30_encoding.md. The layers are: the four fields of the decode word, the rows of the table over
them, the decoder and the encoder as inverse functions, the bytes of a word, the words counted by the operation they
select, what a step runs, the bytes of a sample, and the statements. -/

namespace Sys2Proof.Machine

open Sys2Proof.Config

/-! ### The fields of the decode word (R49) -/

@[simp] theorem wordRst_formWord (rst : Bool) (mode : Mode) (v : Bool) (d : Byte) :
    wordRst (formWord rst mode v d) = rst := by
  simp only [wordRst, formWord, BitVec.getLsbD_append]
  simp

theorem formWord_getLsbD_mode (rst : Bool) (mode : Mode) (v : Bool) (d : Byte) :
    (formWord rst mode v d).getLsbD 9 = decide (mode = .P) := by
  simp only [formWord, BitVec.getLsbD_append]
  cases mode <;> rfl

@[simp] theorem wordMode_formWord (rst : Bool) (mode : Mode) (v : Bool) (d : Byte) :
    wordMode (formWord rst mode v d) = mode := by
  rw [wordMode, formWord_getLsbD_mode]
  cases mode <;> rfl

@[simp] theorem wordValid_formWord (rst : Bool) (mode : Mode) (v : Bool) (d : Byte) :
    wordValid (formWord rst mode v d) = v := by
  simp only [wordValid, formWord, BitVec.getLsbD_append]
  simp

/-- The word as a number: the place value of each field of R49. -/
theorem formWord_toNat (rst : Bool) (mode : Mode) (v : Bool) (d : Byte) :
    (formWord rst mode v d).toNat = 1024 * rst.toNat + 512 * mode.bit.toNat + 256 * v.toNat + d.toNat := by
  simp only [formWord, BitVec.toNat_append]
  rw [← Nat.shiftLeft_add_eq_or_of_lt d.isLt]
  cases rst <;> cases mode <;> cases v <;> simp [Mode.bit]

theorem mode_eq_M_of_ne_P {m : Mode} (h : m ≠ .P) : m = .M := by
  cases m with
  | M => rfl
  | P => exact absurd rfl h

theorem wordMode_eq_P_iff (w : DecodeWord) : wordMode w = .P ↔ w.getLsbD 9 = true := by
  cases h : w.getLsbD 9 <;> simp only [wordMode, h] <;> decide

theorem toNat_bit_ofBit (b : Bool) : (Mode.ofBit b).bit.toNat = b.toNat := by
  cases b <;> rfl

/-- A decode word is its four fields and nothing else. -/
theorem formWord_fields (w : DecodeWord) :
    formWord (wordRst w) (wordMode w) (wordValid w) (wordData w) = w := by
  have hw : w.toNat < 2048 := w.isLt
  apply BitVec.eq_of_toNat_eq
  rw [formWord_toNat, wordRst, wordMode, wordValid, wordData, toNat_bit_ofBit]
  simp only [BitVec.getLsbD, Nat.toNat_testBit, BitVec.extractLsb'_toNat]
  omega

/-! ### The rows of the table over the fields (R50) -/

theorem formWord_inj {rst rst' v v' : Bool} {mode mode' : Mode} {d d' : Byte} :
    formWord rst mode v d = formWord rst' mode' v' d' ↔ rst = rst' ∧ mode = mode' ∧ v = v' ∧ d = d' := by
  constructor
  · intro h
    have hr := congrArg wordRst h
    have hm := congrArg wordMode h
    have hv := congrArg wordValid h
    have hd := congrArg wordData h
    simp only [wordRst_formWord, wordMode_formWord, wordValid_formWord, wordData_formWord] at hr hm hv hd
    exact ⟨hr, hm, hv, hd⟩
  · rintro ⟨rfl, rfl, rfl, rfl⟩
    rfl

/-- A row whose mask has no bit of `in_data` tests the three bits above it. -/
theorem selects_of_top_mask (op : Op) (mask pattern : BitVec 3) (rst : Bool) (mode : Mode) (v : Bool) (d : Byte) :
    OpRow.selects ⟨op, mask ++ 0#8, pattern ++ 0#8⟩ (formWord rst mode v d) =
      ((BitVec.ofBool rst ++ mode.bit ++ BitVec.ofBool v) &&& mask == pattern) := by
  have hand : formWord rst mode v d &&& (mask ++ 0#8) =
      ((BitVec.ofBool rst ++ mode.bit ++ BitVec.ofBool v) &&& mask) ++ 0#8 := by
    rw [formWord, BitVec.and_append, BitVec.and_zero]
  rw [OpRow.selects, hand, Bool.eq_iff_iff, beq_iff_eq, beq_iff_eq]
  exact BitVec.append_left_inj 0#8

theorem selects_reset_row (rst : Bool) (mode : Mode) (v : Bool) (d : Byte) :
    OpRow.selects ⟨.reset, 0x400#11, 0x400#11⟩ (formWord rst mode v d) = rst := by
  refine (selects_of_top_mask .reset 0b100#3 0b100#3 rst mode v d).trans ?_
  cases rst <;> cases mode <;> cases v <;> rfl

theorem selects_idle_row (rst : Bool) (mode : Mode) (v : Bool) (d : Byte) :
    OpRow.selects ⟨.idle, 0x500#11, 0x000#11⟩ (formWord rst mode v d) = (!rst && !v) := by
  refine (selects_of_top_mask .idle 0b101#3 0b000#3 rst mode v d).trans ?_
  cases rst <;> cases mode <;> cases v <;> rfl

/-- The row of M_LF tests every bit, so it matches one word. -/
theorem selects_mLf_row (rst : Bool) (mode : Mode) (v : Bool) (d : Byte) :
    OpRow.selects ⟨.mLf, 0x7FF#11, 0x10A#11⟩ (formWord rst mode v d) =
      (!rst && decide (mode = .M) && v && d == lf) := by
  have hmask : formWord rst mode v d &&& 0x7FF#11 = formWord rst mode v d := BitVec.and_allOnes
  have hpattern : 0x10A#11 = formWord false .M true lf := rfl
  rw [OpRow.selects, hmask, hpattern, Bool.eq_iff_iff, beq_iff_eq, formWord_inj]
  simp [and_assoc]

theorem selects_mChr_row (rst : Bool) (mode : Mode) (v : Bool) (d : Byte) :
    OpRow.selects ⟨.mChr, 0x700#11, 0x100#11⟩ (formWord rst mode v d) = (!rst && decide (mode = .M) && v) := by
  refine (selects_of_top_mask .mChr 0b111#3 0b001#3 rst mode v d).trans ?_
  cases rst <;> cases mode <;> cases v <;> rfl

theorem selects_pByte_row (rst : Bool) (mode : Mode) (v : Bool) (d : Byte) :
    OpRow.selects ⟨.pByte, 0x700#11, 0x300#11⟩ (formWord rst mode v d) = (!rst && decide (mode = .P) && v) := by
  refine (selects_of_top_mask .pByte 0b111#3 0b011#3 rst mode v d).trans ?_
  cases rst <;> cases mode <;> cases v <;> rfl

/-- Which rows a word matches, in the order of the table: only the M_LF word matches two. -/
theorem selectingOps_formWord (rst : Bool) (mode : Mode) (v : Bool) (d : Byte) :
    (opTable.filter fun r => r.selects (formWord rst mode v d)).map OpRow.op =
      if rst then [.reset] else if v = false then [.idle] else if mode = .P then [.pByte]
      else if d = lf then [.mLf, .mChr] else [.mChr] := by
  simp only [opTable, List.filter_cons, List.filter_nil, selects_reset_row, selects_idle_row, selects_mLf_row,
    selects_mChr_row, selects_pByte_row]
  cases rst with
  | true => simp
  | false =>
    cases v with
    | false => simp
    | true =>
      cases mode with
      | P => simp
      | M => by_cases hd : d = lf <;> simp [hd]

/-! ### The decoder and the encoder (R50, R51) -/

theorem selectOp_encode {i : Instr} (h : i.wellFormed = true) : selectOp (encode i) = some i.op := by
  cases i with
  | reset mode v d => exact selectOp_reset mode v d
  | idle mode d => exact selectOp_idle mode d
  | mLf => rfl
  | mChr b => exact selectOp_mChr (bne_iff_ne.mp h)
  | pByte b => exact selectOp_pByte b

/-- The operands come back from the fields that the encoding put them in. -/
theorem instrOfOp_encode (i : Instr) : instrOfOp i.op (encode i) = i := by
  cases i <;> simp [Instr.op, encode, instrOfOp]

theorem decodeWord_encode {i : Instr} (h : i.wellFormed = true) : Sys2Proof.decodeWord (encode i) = .ok i := by
  rw [Sys2Proof.decodeWord, selectOp_encode h]
  exact congrArg Except.ok (instrOfOp_encode i)

theorem encode_injective_of_wellFormed {i j : Instr} (hi : i.wellFormed = true) (hj : j.wellFormed = true)
    (h : encode i = encode j) : i = j := by
  have hdec := decodeWord_encode hi
  rw [h, decodeWord_encode hj] at hdec
  exact (Except.ok.inj hdec).symm

/-- The operation of a word, by the conditions of R50 in words. -/
def operationOf (w : DecodeWord) : Instr :=
  if wordRst w then .reset (wordMode w) (wordValid w) (wordData w)
  else if wordValid w = false then .idle (wordMode w) (wordData w)
  else if wordMode w = .P then .pByte (wordData w)
  else if wordData w = lf then .mLf
  else .mChr (wordData w)

theorem operationOf_wellFormed (w : DecodeWord) : (operationOf w).wellFormed = true := by
  unfold operationOf
  split_ifs with hr hv hm hd
  case neg => exact bne_iff_ne.mpr hd
  all_goals rfl

/-- The conditions leave no field open: the operation and its operands give the word back. -/
theorem encode_operationOf (w : DecodeWord) : encode (operationOf w) = w := by
  conv_rhs => rw [← formWord_fields w]
  unfold operationOf
  split_ifs with hr hv hm hd
  · simp [encode, hr]
  · simp [encode, hr, hv]
  · simp [encode, hr, hv, hm]
  · simp [encode, hr, hv, hd, mode_eq_M_of_ne_P hm]
  · simp [encode, hr, hv, mode_eq_M_of_ne_P hm]

theorem decodeWord_eq_operationOf (w : DecodeWord) : Sys2Proof.decodeWord w = .ok (operationOf w) := by
  conv_lhs => rw [← encode_operationOf w]
  exact decodeWord_encode (operationOf_wellFormed w)

/-! ### The bytes of a word (assumption log 1) -/

theorem tableWordBytes_high (w : DecodeWord) : (BitVec.ofNat 8 (w.toNat / 256)).toNat = w.toNat / 256 := by
  have hw : w.toNat < 2048 := w.isLt
  rw [BitVec.toNat_ofNat]
  omega

theorem tableWordBytes_join (w : DecodeWord) :
    (BitVec.ofNat 8 (w.toNat / 256)).setWidth 3 ++ BitVec.ofNat 8 w.toNat = w := by
  have hw : w.toNat < 2048 := w.isLt
  apply BitVec.eq_of_toNat_eq
  rw [BitVec.toNat_append, ← Nat.shiftLeft_add_eq_or_of_lt (BitVec.isLt _), BitVec.toNat_setWidth,
    tableWordBytes_high, BitVec.toNat_ofNat, Nat.shiftLeft_eq]
  omega

/-- Two bytes of a word decode as the word, and the bytes after them are left. -/
theorem decodeBytes_tableWordBytes (w : DecodeWord) (rest : List Byte) :
    decodeBytes (tableWordBytes w.toNat ++ rest) = (Sys2Proof.decodeWord w).map fun i => (i, rest) := by
  have hw : w.toNat < 2048 := w.isLt
  have hhigh : (BitVec.ofNat 8 (w.toNat / 256)).toNat < 8 := by
    rw [tableWordBytes_high]
    omega
  rw [tableWordBytes, List.cons_append, List.cons_append, List.nil_append, decodeBytes, if_pos hhigh,
    tableWordBytes_join]

theorem decodeTableWord_encode {i : Instr} (h : i.wellFormed = true) :
    decodeTableWord 16 (encode i).toNat = some i := by
  have hw : (encode i).toNat < 2048 := (encode i).isLt
  have hmod : (encode i).toNat % 2 ^ 16 = (encode i).toNat := by omega
  have hdec := decodeBytes_tableWordBytes (encode i) []
  rw [List.append_nil, decodeWord_encode h] at hdec
  simp only [decodeTableWord, hmod, hdec, Except.map]
  rw [if_pos (by omega)]

/-! ### The words counted by the operation they select (R51) -/

theorem countP_range_mul (q : Nat → Bool) (m k : Nat) :
    (List.range (m * k)).countP q =
      ((List.range k).map fun j => (List.range m).countP fun d => q (m * j + d)).sum := by
  induction k with
  | zero => rfl
  | succ k ih =>
    rw [Nat.mul_succ, List.range_add, List.countP_append, List.countP_map, ih, List.range_succ, List.map_append,
      List.sum_append, List.map_singleton, List.sum_singleton]
    rfl

/-- How many bytes, with the other three fields fixed, make a word of `p`. -/
def bytesMaking (p : DecodeWord → Bool) (rst : Bool) (mode : Mode) (v : Bool) : Nat :=
  (List.range 256).countP fun n => p (formWord rst mode v (BitVec.ofNat 8 n))

/-- The `k`-th block of 256 words has the bits of `k` in its three top fields. -/
theorem ofNat_block {k n : Nat} (hk : k < 8) (hn : n < 256) :
    BitVec.ofNat 11 (256 * k + n) =
      formWord (k.testBit 2) (Mode.ofBit (k.testBit 1)) (k.testBit 0) (BitVec.ofNat 8 n) := by
  apply BitVec.eq_of_toNat_eq
  rw [formWord_toNat, toNat_bit_ofBit, BitVec.toNat_ofNat, BitVec.toNat_ofNat]
  simp only [Nat.toNat_testBit]
  omega

/-- The words of a property, one block of 256 for each value of the other three fields. -/
theorem countP_words (p : DecodeWord → Bool) :
    (List.range 2048).countP (fun n => p (BitVec.ofNat 11 n)) =
      bytesMaking p false .M false + bytesMaking p false .M true + bytesMaking p false .P false +
      bytesMaking p false .P true + bytesMaking p true .M false + bytesMaking p true .M true +
      bytesMaking p true .P false + bytesMaking p true .P true := by
  have hblock : ∀ k < 8, (List.range 256).countP (fun n => p (BitVec.ofNat 11 (256 * k + n))) =
      bytesMaking p (k.testBit 2) (Mode.ofBit (k.testBit 1)) (k.testBit 0) := fun k hk =>
    List.countP_congr fun n hn => by rw [ofNat_block hk (List.mem_range.mp hn)]
  rw [show 2048 = 256 * 8 from rfl, countP_range_mul,
    List.map_congr_left fun k hk => hblock k (List.mem_range.mp hk)]
  simp only [show List.range 8 = [0, 1, 2, 3, 4, 5, 6, 7] from rfl, List.map_cons, List.map_nil, List.sum_cons,
    List.sum_nil]
  simp only [← Nat.add_assoc, Nat.add_zero]
  rfl

theorem selectOp_markerByte (d : Byte) :
    selectOp (formWord false .M true d) = some (if d = lf then .mLf else .mChr) := by
  by_cases hd : d = lf
  · rw [hd]
    rfl
  · rw [if_neg hd, selectOp_mChr hd]

theorem countP_range_eq_lf : (List.range 256).countP (fun n => decide (BitVec.ofNat 8 n = lf)) = 1 := by
  have hten : ∀ n ∈ List.range 256, decide (BitVec.ofNat 8 n = lf) = (n == 10) := by
    intro n hn
    have hn : n < 256 := List.mem_range.mp hn
    rw [Bool.eq_iff_iff, decide_eq_true_iff, beq_iff_eq, ← BitVec.toNat_inj, BitVec.toNat_ofNat, BitVec.toNat_ofNat]
    omega
  rw [List.countP_congr fun n hn => by rw [hten n hn]]
  exact List.count_eq_one_of_mem List.nodup_range (List.mem_range.mpr (by omega))

theorem countP_range_ne_lf : (List.range 256).countP (fun n => !decide (BitVec.ofNat 8 n = lf)) = 255 := by
  have hsum := List.length_eq_countP_add_countP (fun n => decide (BitVec.ofNat 8 n = lf)) (l := List.range 256)
  rw [countP_range_eq_lf, List.length_range] at hsum
  simp only [decide_eq_true_eq, decide_not] at hsum
  omega

/-- How many words the table gives to an operation. -/
def wordsOf : Op → Nat
  | .reset => 1024
  | .idle => 512
  | .mLf => 1
  | .mChr => 255
  | .pByte => 256

theorem countP_selectOp (op : Op) :
    (List.range 2048).countP (fun n => selectOp (BitVec.ofNat 11 n) = some op) = wordsOf op := by
  rw [countP_words fun w => decide (selectOp w = some op)]
  simp only [bytesMaking, selectOp_reset, selectOp_idle, selectOp_pByte, selectOp_markerByte]
  cases op with
  | reset | idle | pByte => simp [wordsOf, ite_eq_iff]
  | mLf => simp [wordsOf, countP_range_eq_lf]
  | mChr => simp [wordsOf, countP_range_ne_lf]

theorem countP_idle_of_mode (b : Bool) :
    (List.range 2048).countP (fun n =>
      selectOp (BitVec.ofNat 11 n) = some .idle ∧ (BitVec.ofNat 11 n).getLsbD 9 = b) = 256 := by
  rw [countP_words fun w => decide (selectOp w = some .idle ∧ w.getLsbD 9 = b)]
  simp only [bytesMaking, selectOp_reset, selectOp_idle, selectOp_pByte, selectOp_markerByte, formWord_getLsbD_mode]
  cases b <;> simp [ite_eq_iff]

/-! ### What a step runs -/

theorem step_of_decodeWord {s : State} {i : Instr} (h : Sys2Proof.decodeWord s.decodeWord = .ok i) :
    step s = exec i s.consumeInput := by
  rw [step, h]

theorem fetchWord_toNat (w : DecodeWord) : fetchWord 16 w.toNat = w := by
  have hw : w.toNat < 2048 := w.isLt
  rw [fetchWord, Nat.mod_eq_of_lt (by omega), BitVec.ofNat_toNat, BitVec.setWidth_eq]

/-- The pins and the mode of a placed word are its fields, so the edge has the word again. -/
theorem State.decodeWord_withFetchWord (s : State) (nbits w : Nat) :
    (s.withFetchWord nbits w).decodeWord = fetchWord nbits w :=
  formWord_fields (fetchWord nbits w)

theorem State.consumeInput_withFetchWord (s : State) (nbits w : Nat) :
    (s.withFetchWord nbits w).consumeInput = { s with mode := fetchMode nbits w } := rfl

/-! ### The bytes of a sample (R55, R64) -/

theorem joinBytes_eq_append (hi lo : Byte) : joinBytes hi lo = hi ++ lo := by
  simp only [joinBytes, zext16, BitVec.append_def, BitVec.shiftLeftZeroExtend_eq, BitVec.setWidth'_eq]

theorem joinBytes_high (hi lo : Byte) : (joinBytes hi lo).extractLsb' 8 8 = hi := by
  rw [joinBytes_eq_append]
  exact BitVec.extractLsb'_append_eq_left

theorem joinBytes_low (hi lo : Byte) : (joinBytes hi lo).extractLsb' 0 8 = lo := by
  rw [joinBytes_eq_append]
  exact BitVec.extractLsb'_append_eq_right

theorem unpack_getElem (f : Frame) (i : Fin 288) :
    (unpack f)[i.val] = joinBytes (f[2 * i.val]'(show 2 * i.val < 576 by omega))
      (f[2 * i.val + 1]'(show 2 * i.val + 1 < 576 by omega)) :=
  Vector.getElem_ofFn _

/-! ### The statements -/

/-- Settles O5: the table selects the operation that was encoded, and every field gives its operand back. -/
theorem decodeEncodeAgree : Obligations.DecodeEncodeAgree := by
  intro i hwf
  refine ⟨decodeWord_encode hwf, fun rest => ?_⟩
  rw [encodeBytes, decodeBytes_tableWordBytes, decodeWord_encode hwf]
  rfl

/-- Settles O6: the fields of the word are an operation's, and a second operation with this encoding would decode to the
first. -/
theorem encodeDecodeAgree : Obligations.EncodeDecodeAgree := by
  intro w
  have hwf := operationOf_wellFormed w
  have henc := encode_operationOf w
  exact ⟨operationOf w, decodeWord_eq_operationOf w, hwf, henc,
    fun j hj h => encode_injective_of_wellFormed hj hwf (h.trans henc.symm)⟩

/-- Settles O29: the two halves of a sample do not overlap. -/
theorem sampleIsBigEndianUnsigned : Obligations.SampleIsBigEndianUnsigned := by
  intro f i
  rw [unpack_getElem]
  exact ⟨rfl, joinBytes_high _ _, joinBytes_low _ _⟩

/-- Settles O1, a field at a time. -/
theorem decodeWordHasFourFields : Obligations.DecodeWordHasFourFields :=
  fun _ => ⟨wordRst_formWord _ _ _ _, formWord_getLsbD_mode _ _ _ _, wordValid_formWord _ _ _ _,
    wordData_formWord _ _ _ _⟩

/-- Settles O2, by running the decoder on each word. -/
theorem specWordsDecode : Obligations.SpecWordsDecode :=
  ⟨rfl, rfl, rfl, rfl, rfl, rfl, rfl, rfl, rfl⟩

/-- Settles O3: the decoder answers the conditions in words, and the rows overlap only where the byte is `LF`. -/
theorem operationTableInWords : Obligations.OperationTableInWords := by
  refine ⟨fun w => ?_, fun w hw => ?_, selectingOps_formWord false .M true lf⟩
  · rw [decodeWord_eq_operationOf, operationOf]
    simp only [wordMode_eq_P_iff]
    rfl
  · rw [← List.length_map (f := OpRow.op), ← formWord_fields w, selectingOps_formWord]
    split_ifs with hr hv hm hd
    · rfl
    · rfl
    · rfl
    · have hmLf : w = formWord false .M true lf := by
        rw [← formWord_fields w, Bool.eq_false_iff.mpr hr, mode_eq_M_of_ne_P hm, Bool.eq_true_of_not_eq_false hv, hd]
      exact absurd hmLf hw
    · rfl

/-- Settles O4: every word is an encoding, and the words are counted in the eight blocks of their top three bits. -/
theorem decodeTotalWithCounts : Obligations.DecodeTotalWithCounts := by
  refine ⟨fun w => ?_, countP_selectOp .reset, countP_selectOp .idle, countP_idle_of_mode, countP_selectOp .mLf,
    countP_selectOp .mChr, countP_selectOp .pByte⟩
  have hsel := selectOp_encode (operationOf_wellFormed w)
  rw [encode_operationOf] at hsel
  exact ⟨(operationOf w).op, hsel, fun op hop => Option.some.inj (hop.symm.trans hsel)⟩

/-- Settles O7: the pins and the mode of the edge carry the word, and the table reads the operation back from it. -/
theorem placedWordRunsNext : Obligations.PlacedWordRunsNext := by
  intro i hwf
  refine ⟨decodeTableWord_encode hwf, fun s => ?_⟩
  have hw : fetchWord 16 (encode i).toNat = encode i := fetchWord_toNat _
  have hdec : Sys2Proof.decodeWord (s.withFetchWord 16 (encode i).toNat).decodeWord = .ok i := by
    rw [State.decodeWord_withFetchWord, hw, decodeWord_encode hwf]
  rw [step_of_decodeWord hdec, State.consumeInput_withFetchWord, fetchMode, hw]

/-- Settles O9: the step runs what the word decodes to, and every word is an encoding. -/
theorem stepRunsDecodedOperation : Obligations.StepRunsDecodedOperation :=
  ⟨fun _ _ h => step_of_decodeWord h,
    fun s => ⟨operationOf s.decodeWord, operationOf_wellFormed _, decodeWord_eq_operationOf _⟩,
    fun _ _ _ h => State.nextInput_of_inputs h, fun s h => by rw [State.nextInput, h]⟩

end Sys2Proof.Machine
end

section
/-! Statements of spec/40_marker_detector.md. The layers are: the words of the detector's operations, their effects on
any state, the line that ends a marker, the search up to its first marker line, the step and the Spectrum of an
emission, and the statements. -/

namespace Sys2Proof.Machine

open Sys2Proof.Config

/-! ### The words of IDLE and M_CHR (R50, R57, R59) -/

theorem encode_idle_of_row {w : DecodeWord} (h : w &&& 0x500#11 = 0x000#11) :
    encode (.idle (wordMode w) (wordData w)) = w := by
  have hrow := selects_idle_row (wordRst w) (wordMode w) (wordValid w) (wordData w)
  rw [formWord_fields, OpRow.selects, beq_iff_eq.mpr h] at hrow
  obtain ⟨hr, hv⟩ : wordRst w = false ∧ wordValid w = false := by simpa using hrow.symm
  conv_rhs => rw [← formWord_fields w, hr, hv]
  rfl

theorem encode_mChr_of_row {w : DecodeWord} (h : w &&& 0x700#11 = 0x100#11) : encode (.mChr (wordData w)) = w := by
  have hrow := selects_mChr_row (wordRst w) (wordMode w) (wordValid w) (wordData w)
  rw [formWord_fields, OpRow.selects, beq_iff_eq.mpr h] at hrow
  obtain ⟨⟨hr, hm⟩, hv⟩ : (wordRst w = false ∧ wordMode w = .M) ∧ wordValid w = true := by simpa using hrow.symm
  conv_rhs => rw [← formWord_fields w, hr, hm, hv]
  rfl

theorem decodeWord_of_encode {i : Instr} {w : DecodeWord} (he : encode i = w) (hwf : i.wellFormed = true) :
    Sys2Proof.decodeWord w = .ok i :=
  he ▸ decodeWord_encode hwf

/-- The one word of M_CHR's row that priority gives to M_LF is 0x10A. -/
theorem mChr_wellFormed_of_row {w : DecodeWord} (h : w &&& 0x700#11 = 0x100#11) (hne : w ≠ 0x10A#11) :
    (Instr.mChr (wordData w)).wellFormed = true := by
  refine bne_iff_ne.mpr fun hd => hne ?_
  rw [← encode_mChr_of_row h, hd]
  rfl

/-! ### What M_LF and M_CHR do to a state (R58, R59) -/

theorem execMLf_of_marker {s : State} (h : s.lineIsMarker = true) :
    execMLf s = .next s.enterPayload.startLine.clearValid := if_pos h

theorem execMLf_of_other {s : State} (h : ¬ s.lineIsMarker = true) :
    execMLf s = .next s.startLine.clearValid := if_neg h

theorem execMChr_extend {b : Byte} {s : State} (h : s.continuesMarker b = true) :
    execMChr b s = .next s.extendLine.clearValid := if_pos h

theorem execMChr_kill {b : Byte} {s : State} (h : ¬ s.continuesMarker b = true) :
    execMChr b s = .next s.killLine.clearValid := if_neg h

/-- The bytes that can continue a line are those of `MARKER` before its `LF`. -/
theorem State.continuesMarker_iff_take (s : State) (b : Byte) :
    s.continuesMarker b = true ↔ s.mdead = false ∧ s.mpos.toNat < 6 ∧ (marker.take 6)[s.mpos.toNat]? = some b := by
  rw [State.continuesMarker_iff]
  refine and_congr_right fun _ => and_congr_right fun hpos => ?_
  rw [List.getElem?_take_of_lt hpos]

/-- `MARKER` is ASCII. -/
theorem State.not_continuesMarker_of_high (s : State) {b : Byte} (hb : 0x80#8 ≤ b) : ¬ s.continuesMarker b = true := by
  have hascii : ∀ c ∈ marker, c < 0x80#8 := by decide
  intro hc
  obtain ⟨-, -, hbyte⟩ := (s.continuesMarker_iff b).mp hc
  exact BitVec.not_lt.mpr hb (hascii b (List.mem_of_getElem? hbyte))

/-- R61: in mode `M` the pulse goes down, and the registers of the payload and of the output keep their values. -/
theorem State.StepsTo.keeps_outputs {s t : State} (h : s.StepsTo t) (hm : s.mode = .M) (hr : s.nextInput.rst = false) :
    t.pbuf = s.pbuf ∧ t.outSpec = s.outSpec ∧ t.outValid = false := by
  cases h with
  | reset hr' => simp [hr] at hr'
  | idle | markerLine | otherLine | extend | kill => exact ⟨rfl, rfl, rfl⟩
  | capture hm' | emit hm' => simp [hm] at hm'

/-! ### The line that ends a marker (R54, R60) -/

/-- Bytes without an `LF`, at the start of a line, are the current line. -/
theorem currentLine_append {before line : List Byte} (hstart : before = [] ∨ before.getLast? = some lf)
    (hl : lf ∉ line) : currentLine (before ++ line) = line := by
  induction line using List.reverseRecOn with
  | nil =>
    rw [List.append_nil]
    obtain rfl | hlast := hstart
    · rfl
    · obtain ⟨init, rfl⟩ := List.getLast?_eq_some_iff.mp hlast
      rw [currentLine_append_byte, if_pos rfl]
  | append_singleton line b ih =>
    obtain ⟨hline, hb⟩ : lf ∉ line ∧ b ≠ lf := by simpa [eq_comm] using hl
    rw [← List.append_assoc, currentLine_append_byte, if_neg hb, ih hline]

/-- A marker line is completed by an `LF` that makes the current line `MARKER`, and by no other byte. -/
theorem endsMarkerLine_append_byte_iff {bs : List Byte} {b : Byte} :
    EndsMarkerLine (bs ++ [b]) ↔ b = lf ∧ currentLine bs ++ [lf] = marker := by
  constructor
  · rintro ⟨before, he, hstart⟩
    have hmarker : before ++ marker = before ++ marker.take 6 ++ [lf] := by
      rw [List.append_assoc]
      rfl
    obtain ⟨rfl, hb⟩ := List.append_inj' (he.trans hmarker) rfl
    rw [currentLine_append hstart (by decide)]
    exact ⟨List.singleton_inj.mp hb, rfl⟩
  · rintro ⟨rfl, hl⟩
    exact endsMarkerLine_of_currentLine hl

/-! ### The search up to its first marker line (R60) -/

/-- No byte sequence that is shorter and begins `bs` ends with a marker line. -/
def NoEarlierMarkerLine (bs : List Byte) : Prop := ∀ p : List Byte, p <+: bs → p ≠ bs → ¬ EndsMarkerLine p

theorem NoEarlierMarkerLine.of_prefix {bs p : List Byte} (h : NoEarlierMarkerLine bs) (hp : p <+: bs) :
    NoEarlierMarkerLine p :=
  fun q hq hne => h q (hq.trans hp) fun he => hne (hq.eq_of_length_le (he ▸ hp.length_le))

theorem NoEarlierMarkerLine.of_append_byte {bs : List Byte} {b : Byte} (h : NoEarlierMarkerLine (bs ++ [b])) :
    ¬ EndsMarkerLine bs :=
  h bs (List.prefix_append bs [b]) (by simp)

/-- The search still goes on where `bs` completes no marker line, and has ended in mode `P` where it does. -/
def State.SearchedTo (bs : List Byte) (s : State) : Prop :=
  (¬ EndsMarkerLine bs ∧ s.SearchesAfter bs) ∨ (EndsMarkerLine bs ∧ s.mode = .P)

theorem State.SearchedTo.mode_iff {bs : List Byte} {s : State} (h : s.SearchedTo bs) :
    s.mode = .P ↔ EndsMarkerLine bs := by
  obtain ⟨hno, hm, -⟩ | ⟨hyes, hm⟩ := h
  · simp [hno, hm]
  · simp [hyes, hm]

/-- Up to its first marker line the search is kept. The `LF` of that line ends it. -/
theorem keptByBytes_searchedTo : KeptByBytes NoEarlierMarkerLine State.SearchedTo := by
  rintro bs s (⟨hno, hm, hl⟩ | ⟨hyes, hm⟩) hr hfirst
  · by_cases hend : EndsMarkerLine (bs ++ s.nextInput.bytes)
    · cases hv : s.nextInput.inValid with
      | false => exact absurd (by rwa [Input.bytes_of_idle hv, List.append_nil] at hend) hno
      | true =>
        rw [Input.bytes_of_byte hr hv] at hend ⊢
        obtain ⟨hd, hline⟩ := endsMarkerLine_append_byte_iff.mp hend
        exact ⟨_, .markerLine hm hr hv hd (hl.lineIsMarker_iff.mpr hline), rfl, .inr ⟨hend, rfl⟩⟩
    · obtain ⟨t, hstep, hpulse, hsearch⟩ := keptByBytes_searchesAfter bs s ⟨hm, hl⟩ hr hend
      exact ⟨t, hstep, hpulse, .inl ⟨hend, hsearch⟩⟩
  · cases hv : s.nextInput.inValid with
    | false =>
      rw [Input.bytes_of_idle hv, List.append_nil]
      exact ⟨_, .idle hr hv, rfl, .inr ⟨hyes, hm⟩⟩
    | true => exact absurd hyes (Input.bytes_of_byte hr hv ▸ hfirst).of_append_byte

/-! ### The step of the first emission (R71) -/

theorem Input.length_bytes_le (i : Input) : i.bytes.length ≤ 1 := by
  unfold Input.bytes
  split <;> simp

/-- A step delivers at most one byte. -/
theorem length_deliveredBytes_take_succ_le (ins : List Input) (k : Nat) :
    (deliveredBytes (ins.take (k + 1))).length ≤ (deliveredBytes (ins.take k)).length + 1 := by
  rw [List.take_add_one, deliveredBytes_append, List.length_append]
  cases ins[k]? with
  | none => simp
  | some i =>
    have := i.length_bytes_le
    rw [Option.toList_some, deliveredBytes_cons_bytes, deliveredBytes_nil, List.append_nil]
    omega

theorem deliveredBytes_take_prefix (ins : List Input) (k : Nat) : deliveredBytes (ins.take k) <+: deliveredBytes ins :=
  ⟨deliveredBytes (ins.drop k), by rw [← deliveredBytes_append, List.take_append_drop]⟩

/-- The number of bytes that make a first emission: a frame, and before it `MARKER` if the search is not over. -/
def Source.bytesToEmit : Mode → Nat
  | .M => 583
  | .P => 576

/-- Fewer bytes than that emit nothing. -/
theorem Source.DrainsTo.bytesToEmit_le {d d' : Source} {es : List Spectrum} (h : d.DrainsTo es d') (hes : es ≠ []) :
    Source.bytesToEmit d.mode ≤ d.buffer.length := by
  induction h with
  | settled => exact absurd rfl hes
  | consume hc _ ih =>
    obtain ⟨line, rest, hm, hline, rfl, rfl⟩ | ⟨f, rest, rfl, -, -⟩ := Source.consume?_cases hc
    · have hrest := ih hes
      obtain ⟨hbuf, -⟩ := readLine?_split hline
      rw [hm, hbuf, List.length_append]
      by_cases hmarker : line = marker
      · have hlen : line.length = 7 := by rw [hmarker]; rfl
        rw [if_pos hmarker] at hrest
        simp only [Source.bytesToEmit] at hrest ⊢
        omega
      · rw [if_neg hmarker] at hrest
        exact hrest.trans (Nat.le_add_left _ _)
    · simp [Source.bytesToEmit]

/-- A run's first emission is in the step whose input makes the source's decoder emit first. -/
theorem State.Follows.firstEmission {ins : List Input} {s : State} {d : Source} (h : s.Follows d) (hi : s.inputs = ins)
    (hr : NoReset ins) {t : Nat} {o : Observation} (hobs : observeSteps ins.length t s = .next o) {e : Emission}
    {es : List Emission} (he : o.emissions = e :: es) :
    ∃ (k : Nat) (d₀ d₁ : Source), e.time = t + k ∧
      (d.receive (deliveredBytes (ins.take k))).DrainsTo [] d₀ ∧
      (d.receive (deliveredBytes (ins.take (k + 1)))).DrainsTo [e.spectrum] d₁ := by
  induction ins generalizing s d t o with
  | nil =>
    obtain rfl : ⟨[], s⟩ = o := Host.Outcome.next.inj hobs
    exact nomatch he
  | cons i ins ih =>
    obtain ⟨hri, hrest⟩ := List.forall_mem_cons.mp hr
    obtain rfl : s.nextInput = i := State.nextInput_of_inputs hi
    obtain ⟨s', e', d', hstep, hinputs, hemitted, hdrain, hf⟩ := h.step hri
    obtain ⟨s'', e'', o', hstep', hemitted', hobs', rfl⟩ := observeSteps_succ_eq_next.mp hobs
    obtain rfl := Host.Outcome.next.inj (hstep.symm.trans hstep')
    obtain rfl := Host.Outcome.next.inj (hemitted.symm.trans hemitted')
    cases e' with
    | some sp =>
      obtain ⟨rfl, -⟩ := List.cons.inj he
      refine ⟨0, d, d', rfl, ?_, ?_⟩
      · simpa using .settled h.consume?_eq_none
      · simpa [deliveredBytes_cons_bytes] using hdrain
    | none =>
      obtain ⟨k, d₀, d₁, htime, hbefore, hat⟩ := ih hf (by rw [hinputs, hi, List.tail_cons]) hrest hobs' he
      refine ⟨k + 1, d₀, d₁, by omega, ?_, ?_⟩
      · rw [List.take_succ_cons, deliveredBytes_cons_bytes, ← Source.receive_receive]
        exact hdrain.receive hbefore
      · rw [List.take_succ_cons, deliveredBytes_cons_bytes, ← Source.receive_receive]
        exact hdrain.receive hat

/-! ### The Spectrum that a run leaves in `out_spec` (R25) -/

/-- A step without a reset leaves the Spectrum that it emits, or the one that stood there. -/
theorem State.StepsTo.outSpec_eq {s t : State} (h : s.StepsTo t) (hr : s.nextInput.rst = false) {e : Option Spectrum}
    (he : t.emitted = .next e) : t.outSpec = e.or s.outSpec := by
  rw [State.emitted_eq_next] at he
  split at he
  · obtain ⟨sp, hsp, rfl⟩ := he
    exact hsp
  · rename_i hpulse
    rw [he, Option.none_or]
    exact h.outSpec_of_no_emission hr (mt h.outValid_iff_emits.mpr hpulse)

/-- A run without a reset leaves the Spectrum that it emitted last, or the one that stood there. -/
theorem observeSteps_outSpec {ins : List Input} {s : State} (hi : s.inputs = ins) (hr : NoReset ins) {t : Nat}
    {o : Observation} (hobs : observeSteps ins.length t s = .next o) :
    o.final.outSpec = (spectraOf o.emissions).getLast?.or s.outSpec := by
  induction ins generalizing s t o with
  | nil =>
    obtain rfl : ⟨[], s⟩ = o := Host.Outcome.next.inj hobs
    rfl
  | cons i ins ih =>
    obtain ⟨hri, hrest⟩ := List.forall_mem_cons.mp hr
    obtain rfl : s.nextInput = i := State.nextInput_of_inputs hi
    obtain ⟨s', e, o', hstep, hemitted, hobs', rfl⟩ := observeSteps_succ_eq_next.mp hobs
    have hstep := step_eq_next_iff.mp hstep
    have hlast : e.toList.getLast? = e := by cases e <;> rfl
    rw [Observation.withStep_final, ih (by rw [hstep.inputs_eq, hi, List.tail_cons]) hrest hobs',
      hstep.outSpec_eq hri hemitted, Observation.spectraOf_withStep, List.getLast?_append, hlast, Option.or_assoc]

/-! ### The statements -/

/-- Settles O18: which word M_CHR's row shares with M_LF's, and the two branches of the comparison with `MARKER`. -/
theorem chrExtendsOrKillsTheLine : Obligations.ChrExtendsOrKillsTheLine := by
  refine ⟨fun w hw hne => decodeWord_of_encode (encode_mChr_of_row hw) (mChr_wellFormed_of_row hw hne), fun b s => ?_,
    fun s hpos => by bv_omega, fun b s hb => execMChr_kill (s.not_continuesMarker_of_high hb)⟩
  have hcond := s.continuesMarker_iff_take b
  by_cases hc : s.continuesMarker b = true
  · exact (execMChr_extend hc).trans (congrArg _ (if_pos (hcond.mp hc)).symm)
  · exact (execMChr_kill hc).trans (congrArg _ (if_neg (mt hcond.mpr hc)).symm)

/-- Settles O20: the search is kept up to its first marker line, and its mode says whether that line has come. -/
theorem firstMarkerLineEntersPayload : Obligations.FirstMarkerLineEntersPayload := by
  intro s ins hm hp hd hr hfirst
  have hempty : ¬ EndsMarkerLine [] := by simp [EndsMarkerLine, marker]
  have hstart : (s.present ins).SearchedTo [] := .inl ⟨hempty, hm, State.tracksLine_nil hp hd⟩
  have hfirst : NoEarlierMarkerLine (deliveredBytes ins) := hfirst
  obtain ⟨o, hobs, -, hfinal⟩ := keptByBytes_searchedTo.observed hstart hr fun _ hp => hfirst.of_prefix hp
  exact ⟨o, hobs, hfinal.mode_iff⟩

/-- Settles O21, by the cases of a step in mode `M`. -/
theorem markerModeKeepsOutputs : Obligations.MarkerModeKeepsOutputs := by
  intro s t hm hr hstep
  obtain ⟨hbuf, hspec, hpulse⟩ := (step_eq_next_iff.mp hstep).keeps_outputs hm hr
  exact ⟨hbuf, hspec, by rw [State.outHave, State.outHave, hspec], hpulse⟩

/-- Settles O42: the source's decoder emits the frame's unpack, and needs all the bytes to emit anything. -/
theorem markerAndFrameEmitOnce : Obligations.MarkerAndFrameEmitOnce := by
  intro s ins f hs hr hbytes
  have hstart : (s.present ins).Follows Source.start := State.AtLineStart.follows hs
  obtain ⟨o, d, hobs, hrun, hfinal⟩ := hstart.run rfl hr 0
  have hall : (Source.start.receive (deliveredBytes ins)).DrainsTo [unpack f] ⟨.M, []⟩ := by
    rw [hbytes, ← List.append_nil f.toList]
    exact .marker_line (.frame f (.settled rfl))
  obtain ⟨hes, rfl⟩ := hrun.unique hall
  obtain ⟨⟨t, sp⟩, hone, rfl⟩ := List.map_eq_singleton_iff.mp hes
  obtain ⟨k, d₀, d₁, htime, hbefore, hat⟩ := hstart.firstEmission rfl hr hobs hone
  obtain rfl : t = k := htime.trans (Nat.zero_add k)
  have htotal : (deliveredBytes ins).length = 583 := by
    rw [hbytes, List.length_append, Vector.length_toList]
    rfl
  have hge : 583 ≤ (deliveredBytes (ins.take (t + 1))).length := hat.bytesToEmit_le (by simp)
  have hle := (deliveredBytes_take_prefix ins (t + 1)).length_le
  have hlt : (deliveredBytes (ins.take t)).length < 583 := by
    by_contra hnot
    have hwhole := (deliveredBytes_take_prefix ins t).eq_of_length_le (by omega)
    obtain ⟨hnone, -⟩ := (hwhole ▸ hbefore).unique hall
    exact nomatch hnone
  have hstep := length_deliveredBytes_take_succ_le ins t
  have hspec : o.final.outSpec = some (unpack f) := by
    rw [observeSteps_outSpec rfl hr hobs, hes]
    rfl
  exact ⟨o, t, hobs, hone, by omega, by omega, hfinal.atLineStart, hspec⟩

/-- Settles O16: the row fixes `rst` and `in_valid`, and the operation reads no field. -/
theorem idleClearsOnlyThePulse : Obligations.IdleClearsOnlyThePulse :=
  ⟨fun _ hw => decodeWord_of_encode (encode_idle_of_row hw) rfl, fun _ _ _ => rfl⟩

/-- Settles O17, by whether the line equals `MARKER`. -/
theorem lfEndsTheLine : Obligations.LfEndsTheLine := by
  refine ⟨decodeWord_of_encode (i := .mLf) rfl rfl, fun s => ?_⟩
  have hcond := s.lineIsMarker_iff
  by_cases hl : s.lineIsMarker = true
  · rw [if_pos (hcond.mp hl)]
    exact execMLf_of_marker hl
  · rw [if_neg (mt hcond.mpr hl)]
    exact execMLf_of_other hl

end Sys2Proof.Machine
end

section
/-! Statements of spec/41_payload_unpacker.md. The layers are: the word of P_BYTE, the frame that an emission reads, the
arithmetic of a sample, the unpack and its inverse, how mode `P` ends and lasts, and the statements. -/

namespace Sys2Proof.Machine

open Sys2Proof.Config

/-! ### The word of P_BYTE (R50, R62) -/

theorem encode_pByte_of_row {w : DecodeWord} (h : w &&& 0x700#11 = 0x300#11) : encode (.pByte (wordData w)) = w := by
  have hrow := selects_pByte_row (wordRst w) (wordMode w) (wordValid w) (wordData w)
  rw [formWord_fields, OpRow.selects, beq_iff_eq.mpr h] at hrow
  obtain ⟨⟨hr, hm⟩, hv⟩ : (wordRst w = false ∧ wordMode w = .P) ∧ wordValid w = true := by simpa using hrow.symm
  conv_rhs => rw [← formWord_fields w, hr, hm, hv]
  rfl

/-! ### The frame that an emission reads (R36, R63) -/

/-- The read comes after the write of the step: the frame is the captured bytes and the new one. -/
theorem readFrame_put_last_iff {m : Memory} {b : Byte} {f : Frame} :
    readFrame (Memory.put 575 b m) = .next f ↔ (∀ k < 575, Memory.get? m k = f[k]?) ∧ f[575]? = some b := by
  have hput : ∀ k < 575, Memory.get? (Memory.put 575 b m) k = Memory.get? m k :=
    fun k hk => Memory.get?_put_other b m hk.ne
  have hsplit : ∀ p : Nat → Prop, (∀ k < 576, p k) ↔ (∀ k < 575, p k) ∧ p 575 := fun _ => Nat.forall_lt_succ_right
  rw [readFrame_eq_next, hsplit, Memory.get?_put_same, @eq_comm _ (some b)]
  exact and_congr_left fun _ => forall₂_congr fun k hk => by rw [hput k hk]

/-- Whether the buffer has a frame to read does not depend on the value of its last byte. -/
theorem exists_readFrame_put_last {m : Memory} {b : Byte} {f : Frame} (h : readFrame (Memory.put 575 b m) = .next f)
    (b' : Byte) : ∃ f' : Frame, readFrame (Memory.put 575 b' m) = .next f' := by
  obtain ⟨hm, -⟩ := readFrame_put_last_iff.mp h
  refine ⟨f.set 575 b', readFrame_put_last_iff.mpr ⟨fun k hk => ?_, ?_⟩⟩
  · rw [hm k hk, Vector.getElem?_set_ne (Nat.lt_succ_self 575) hk.ne']
  · rw [Vector.getElem?_set_self (Nat.lt_succ_self 575)]

/-! ### The arithmetic of a sample (R64, R65 a to c) -/

theorem joinBytes_toNat (hi lo : Byte) : (joinBytes hi lo).toNat = 256 * hi.toNat + lo.toNat := by
  rw [joinBytes_eq_append, BitVec.toNat_append, ← Nat.shiftLeft_add_eq_or_of_lt lo.isLt, Nat.shiftLeft_eq]
  omega

/-- The high half of a sample is the sample with a low byte of zero. -/
theorem zext16_shiftLeft_eq_joinBytes (hi : Byte) : zext16 hi <<< 8 = joinBytes hi 0#8 := by
  simp [joinBytes, zext16]

/-- The low half of a sample is the sample with a high byte of zero. -/
theorem zext16_eq_joinBytes (lo : Byte) : zext16 lo = joinBytes 0#8 lo := by
  simp [joinBytes, zext16]

theorem zext16_shiftLeft_and_zext16 (hi lo : Byte) : (zext16 hi <<< 8) &&& zext16 lo = 0#16 := by
  rw [zext16_shiftLeft_eq_joinBytes, zext16_eq_joinBytes, joinBytes_eq_append, joinBytes_eq_append, BitVec.and_append,
    BitVec.and_zero, BitVec.zero_and]
  rfl

/-- A sample is its two bytes and nothing else. -/
theorem joinBytes_extractLsb' (x : Sample) : joinBytes (x.extractLsb' 8 8) (x.extractLsb' 0 8) = x := by
  have hx : x.toNat < 65536 := x.isLt
  apply BitVec.eq_of_toNat_eq
  rw [joinBytes_toNat, BitVec.extractLsb'_toNat, BitVec.extractLsb'_toNat]
  omega

/-! ### The unpack and its inverse (R63, R65 d, e) -/

theorem pack_getElem_even (sp : Spectrum) (i : Fin 288) :
    (pack sp)[2 * i.val]'(show 2 * i.val < 576 by omega) = sp[i.val].extractLsb' 8 8 := by
  have hhalf : 2 * i.val / 2 = i.val := by omega
  simp [pack, hhalf]

theorem pack_getElem_odd (sp : Spectrum) (i : Fin 288) :
    (pack sp)[2 * i.val + 1]'(show 2 * i.val + 1 < 576 by omega) = sp[i.val].extractLsb' 0 8 := by
  have hhalf : (2 * i.val + 1) / 2 = i.val := by omega
  have hodd : (2 * i.val + 1) % 2 = 1 := by omega
  simp [pack, hhalf, hodd]

theorem unpack_pack (sp : Spectrum) : unpack (pack sp) = sp := by
  ext1 i hi
  rw [unpack_getElem (pack sp) ⟨i, hi⟩, pack_getElem_even sp ⟨i, hi⟩, pack_getElem_odd sp ⟨i, hi⟩,
    joinBytes_extractLsb']

/-- Every byte of a frame is the high or the low byte of its sample. -/
theorem pack_unpack (f : Frame) : pack (unpack f) = f := by
  ext1 k hk
  have hk : k < 576 := hk
  obtain ⟨i, rfl | rfl⟩ : ∃ i : Fin 288, k = 2 * i.val ∨ k = 2 * i.val + 1 :=
    ⟨⟨k / 2, by omega⟩, by simp only; omega⟩
  · rw [pack_getElem_even, unpack_getElem, joinBytes_high]
  · rw [pack_getElem_odd, unpack_getElem, joinBytes_low]

theorem unpack_bijective : Function.Bijective unpack :=
  Function.bijective_iff_has_inverse.mpr ⟨pack, pack_unpack, unpack_pack⟩

/-! ### How mode `P` ends and lasts (R68) -/

/-- From mode `P`, a reset and an emission lead to mode `M`, and an idle step and a capture stay. -/
theorem State.StepsTo.mode_eq_M_iff {s t : State} (h : s.StepsTo t) (hm : s.mode = .P) :
    t.mode = .M ↔ s.nextInput.rst = true ∨ s.Emits := by
  cases h with
  | reset hr => simp [hr]
  | idle hr hv => simp [State.Emits, hm, hr, hv]
  | markerLine hm' | otherLine hm' | extend hm' | kill hm' => simp [hm] at hm'
  | capture _ hr _ hc => simp [State.Emits, hm, hr, hc.ne]
  | emit _ hr hv hc => simp [State.Emits, hm, hr, hv, hc]

theorem Input.inValid_of_bytes_eq_nil {i : Input} (hr : i.rst = false) (hb : i.bytes = []) : i.inValid = false := by
  cases hv : i.inValid with
  | false => rfl
  | true => simp [Input.bytes_of_byte hr hv] at hb

/-- Without bytes every step is idle, which clears the pulse and keeps the other registers. -/
theorem keptByBytes_sameButPulse (s₀ : State) : KeptByBytes (fun bs => bs = []) fun _ s => s₀.SameButPulse s := by
  intro bs s hsame hr hnone
  obtain ⟨-, hb⟩ := List.append_eq_nil_iff.mp hnone
  exact ⟨_, .idle hr (Input.inValid_of_bytes_eq_nil hr hb), rfl, hsame⟩

/-! ### The statements -/

/-- Settles O26: the row fixes every field but the byte, and below the last byte the write is in range and `pcount` does
not wrap. -/
theorem payloadByteIsCaptured : Obligations.PayloadByteIsCaptured := by
  refine ⟨fun w hw => decodeWord_of_encode (encode_pByte_of_row hw) rfl, fun b s hc => ?_⟩
  exact ⟨_, execPByte_capture b hc, State.countPayload_pcount_toNat hc, rfl, Memory.get?_put_same _ _ _,
    fun a ha => Memory.get?_put_other _ _ ha, rfl, rfl, rfl, rfl, rfl⟩

/-- Settles O27: the emission reads the frame, whose last byte is the one just written. -/
theorem lastPayloadByteEmits : Obligations.LastPayloadByteEmits := by
  intro b s f hc hheld hlast
  exact ⟨_, execPByte_emit hc (readFrame_put_last_iff.mpr ⟨hheld, hlast⟩), rfl, rfl, rfl, rfl, Memory.get?_put_same _ _ _,
    fun a ha => Memory.get?_put_other _ _ ha, rfl, rfl, rfl⟩

/-- Settles O30: a sample is the number 256 times its high byte plus its low byte, and gives both bytes back. -/
theorem unpackLaws : Obligations.UnpackLaws := by
  refine ⟨fun hi lo => ⟨?_, ?_, ?_, zext16_shiftLeft_and_zext16 hi lo⟩, fun f i => ?_, ⟨rfl, rfl, rfl, rfl⟩,
    ⟨unpack_pack, pack_unpack⟩, unpack_bijective⟩
  · exact Nat.le_of_lt_succ (joinBytes hi lo).isLt
  · rw [zext16_shiftLeft_eq_joinBytes, joinBytes_toNat]
    bv_omega
  · rw [zext16_eq_joinBytes, joinBytes_toNat]
    bv_omega
  · rw [unpack_getElem, joinBytes_toNat]

/-- Settles O32: whether the byte is captured or is the last of its frame is up to `pcount`, and neither branch tests
its value. -/
theorem payloadValueDoesNotFrame : Obligations.PayloadValueDoesNotFrame := by
  intro s t b b' _ hexec
  obtain ⟨hc, rfl⟩ | ⟨hc, f, hf, rfl⟩ := execPByte_cases hexec
  · exact ⟨_, execPByte_capture b' hc, rfl, rfl, rfl, rfl, rfl⟩
  · obtain ⟨f', hf'⟩ := exists_readFrame_put_last hf b'
    exact ⟨_, execPByte_emit hc hf', rfl, rfl, rfl, rfl, rfl⟩

/-- Settles O33: the cases of a step from mode `P`, and a run whose steps are all idle. -/
theorem payloadModeLeftOnlyByEmissionOrReset : Obligations.PayloadModeLeftOnlyByEmissionOrReset := by
  refine ⟨fun s t hm hstep => (step_eq_next_iff.mp hstep).mode_eq_M_iff hm, fun s ins _ hr hnone => ?_⟩
  have hstart : s.SameButPulse (s.present ins) := ⟨rfl, rfl, rfl, rfl, rfl, rfl⟩
  exact (keptByBytes_sameButPulse s).observed hstart hr fun p hp => List.prefix_nil.mp (hnone ▸ hp)

end Sys2Proof.Machine
end

section
/-! Statements of spec/42_feed_and_output.md. The layers are: states that differ in the pulse alone, the inputs of a
run, emissions by the byte they happen on, a run beside the `feed` of its bytes, and the statement. -/

namespace Sys2Proof.Machine

open Sys2Proof.Config

/-! ### States that differ in the pulse and the coming inputs alone -/

theorem State.SameButPulse.exists_eq {s s' : State} (h : s.SameButPulse s') :
    ∃ (v : Bool) (ins : List Input), s' = { s with outValid := v, inputs := ins } := by
  obtain ⟨hmode, hmpos, hmdead, hpcount, hpbuf, hspec⟩ := h
  exact ⟨s'.outValid, s'.inputs, by rw [hmode, hmpos, hmdead, hpcount, hpbuf, hspec]⟩

theorem State.SameButPulse.trans_symm {s t u : State} (hs : s.SameButPulse u) (ht : t.SameButPulse u) :
    s.SameButPulse t := by
  obtain ⟨v, ins, rfl⟩ := hs.exists_eq
  obtain ⟨hmode, hmpos, hmdead, hpcount, hpbuf, hspec⟩ := ht
  exact ⟨hmode.symm, hmpos.symm, hmdead.symm, hpcount.symm, hpbuf.symm, hspec.symm⟩

/-- No operation reads the pulse: the same pins lead to the same registers, and the same is emitted. -/
theorem State.StepsTo.exists_same {s s' t : State} (h : s.StepsTo t) (hs : s.SameButPulse s')
    (hi : s.nextInput = s'.nextInput) :
    ∃ t' : State, s'.StepsTo t' ∧ t.SameButPulse t' ∧ t.emitted = t'.emitted := by
  obtain ⟨v, ins, rfl⟩ := hs.exists_eq
  have same : ∀ u : State, u.SameButPulse u := fun _ => ⟨rfl, rfl, rfl, rfl, rfl, rfl⟩
  cases h with
  | reset hr => exact ⟨_, .reset (hi ▸ hr), same _, rfl⟩
  | idle hr hv => exact ⟨_, .idle (hi ▸ hr) (hi ▸ hv), hs, rfl⟩
  | markerLine hm hr hv hd hl =>
    exact ⟨_, .markerLine hm (hi ▸ hr) (hi ▸ hv) (hi ▸ hd) hl, same _, rfl⟩
  | otherLine hm hr hv hd hl => exact ⟨_, .otherLine hm (hi ▸ hr) (hi ▸ hv) (hi ▸ hd) hl, same _, rfl⟩
  | extend hm hr hv hd hc => exact ⟨_, .extend hm (hi ▸ hr) (hi ▸ hv) (hi ▸ hd) (hi ▸ hc), same _, rfl⟩
  | kill hm hr hv hd hc => exact ⟨_, .kill hm (hi ▸ hr) (hi ▸ hv) (hi ▸ hd) (hi ▸ hc), same _, rfl⟩
  | capture hm hr hv hc =>
    exact ⟨_, .capture hm (hi ▸ hr) (hi ▸ hv) hc, ⟨rfl, rfl, rfl, rfl, hi ▸ rfl, rfl⟩, rfl⟩
  | emit hm hr hv hc hf =>
    exact ⟨_, .emit hm (hi ▸ hr) (hi ▸ hv) hc (hi ▸ hf), ⟨rfl, rfl, rfl, rfl, hi ▸ rfl, rfl⟩, rfl⟩

/-! ### The inputs of a run -/

/-- A run of `n` steps consumes `n` inputs. -/
theorem observeSteps_final_inputs {n t : Nat} {s : State} {o : Observation} (h : observeSteps n t s = .next o) :
    o.final.inputs = s.inputs.drop n := by
  induction n generalizing t s o with
  | zero =>
    obtain rfl : ⟨[], s⟩ = o := Host.Outcome.next.inj h
    rfl
  | succ n ih =>
    obtain ⟨s', e, o', hstep, -, hrest, rfl⟩ := observeSteps_succ_eq_next.mp h
    rw [Observation.withStep_final, ih hrest, (step_eq_next_iff.mp hstep).inputs_eq, List.drop_tail]

/-- A run consumes all that is presented to it. -/
theorem observe_final_inputs {s : State} {ins : List Input} {o : Observation} (h : observe s ins = .next o) :
    o.final.inputs = [] := by
  rw [observeSteps_final_inputs h, State.present_inputs, List.drop_length]

theorem Input.eq_byte {i : Input} (hr : i.rst = false) (hv : i.inValid = true) : i = Input.byte i.inData := by
  obtain ⟨rst, v, d⟩ := i
  obtain rfl : rst = false := hr
  obtain rfl : v = true := hv
  rfl

/-! ### Emissions by the byte they happen on (R71) -/

/-- A legal state shows its emission on the ports: the Spectrum of the pulse, or none. -/
theorem State.Legal.exists_emitted {s : State} (h : s.Legal) : ∃ e : Option Spectrum, s.emitted = .next e := by
  obtain ⟨-, -, -, -, -, hpulse, -⟩ := h
  cases hv : s.outValid with
  | false => exact ⟨none, State.emitted_of_no_pulse hv⟩
  | true =>
    obtain ⟨hspec, -⟩ := hpulse hv
    obtain ⟨sp, hsp⟩ := Option.isSome_iff_exists.mp hspec
    exact ⟨some sp, State.emitted_of_pulse hv hsp⟩

/-- A run over `i :: ins`, numbered by the inputs `past` before it, is the step of `i` and the run over `ins`. -/
theorem State.StepsTo.observeSteps_cons {s t : State} (h : s.StepsTo t) {e : Option Spectrum}
    (he : t.emitted = .next e) {past ins : List Input} {i : Input} {o : Observation}
    (hobs : observeSteps ins.length (past ++ [i]).length t = .next o) :
    observeSteps (i :: ins).length past.length s = .next (o.withStep past.length e) := by
  rw [List.length_append, List.length_singleton] at hobs
  exact observeSteps_succ_eq_next.mpr ⟨t, e, o, h.step_eq, he, hobs, rfl⟩

theorem deliveredBytes_append_singleton (past : List Input) (i : Input) :
    deliveredBytes (past ++ [i]) = deliveredBytes past ++ i.bytes := by
  rw [deliveredBytes_append, deliveredBytes_cons_bytes, deliveredBytes_nil, List.append_nil]

/-- An emission in the step after the inputs `past` happens on the last byte delivered by that step. -/
theorem emissionsByByte_withStep (past ins : List Input) (i : Input) (o : Observation) (e : Option Spectrum) :
    emissionsByByte (past ++ i :: ins) (o.withStep past.length e).emissions =
      e.toList.map (fun sp => ((deliveredBytes past).length + i.bytes.length, sp)) ++
        emissionsByByte (past ++ i :: ins) o.emissions := by
  have hbytes : deliveredBytes ((past ++ i :: ins).take (past.length + 1)) = deliveredBytes past ++ i.bytes := by
    rw [List.take_length_add_append, List.take_succ_cons, List.take_zero, deliveredBytes_append_singleton]
  cases e with
  | none => rfl
  | some sp => simp [emissionsByByte, hbytes]

/-! ### A run beside the `feed` of its bytes (R69, R71) -/

/-- What R71 says of a run over `ins` observed as `o` and a run over `ins'` observed as `o'`. -/
def Observation.SameByByte (ins : List Input) (o : Observation) (ins' : List Input) (o' : Observation) : Prop :=
  o.final.SameButPulse o'.final ∧ emissionsByByte ins o.emissions = emissionsByByte ins' o'.emissions

/-- A step that makes the same emission on the same byte before both runs. -/
theorem Observation.SameByByte.withStep {past past' ins ins' : List Input} {i : Input} {o o' : Observation}
    (h : o.SameByByte (past ++ [i] ++ ins) (past' ++ [i] ++ ins') o')
    (hpast : (deliveredBytes past).length = (deliveredBytes past').length) (e : Option Spectrum) :
    (o.withStep past.length e).SameByByte (past ++ i :: ins) (past' ++ i :: ins') (o'.withStep past'.length e) := by
  obtain ⟨hfinal, hemissions⟩ := h
  rw [← List.append_cons, ← List.append_cons] at hemissions
  refine ⟨by rwa [Observation.withStep_final, Observation.withStep_final], ?_⟩
  rw [emissionsByByte_withStep, emissionsByByte_withStep, hpast, hemissions]

/-- Take two states the same but for the pulse, reached after as many bytes in the inputs `past` and `past'`. A run over
`ins` from the first goes like the run from the second over the bytes of `ins`, one in every step. -/
theorem State.SameButPulse.run_sameByByte {ins : List Input} {s s' : State} (hs : s.SameButPulse s') (hl : s.Legal)
    (hi : s.inputs = ins) (hi' : s'.inputs = streamBytes (deliveredBytes ins)) (hr : NoReset ins)
    {past past' : List Input} (hpast : (deliveredBytes past).length = (deliveredBytes past').length) :
    ∃ o o' : Observation, observeSteps ins.length past.length s = .next o ∧
      observeSteps (streamBytes (deliveredBytes ins)).length past'.length s' = .next o' ∧
      o.SameByByte (past ++ ins) (past' ++ streamBytes (deliveredBytes ins)) o' := by
  induction ins generalizing s s' past past' with
  | nil => exact ⟨⟨[], s⟩, ⟨[], s'⟩, rfl, rfl, hs, rfl⟩
  | cons i ins ih =>
    obtain ⟨hri, hrest⟩ := List.forall_mem_cons.mp hr
    obtain rfl : s.nextInput = i := State.nextInput_of_inputs hi
    have hnext {t : State} (h : s.StepsTo t) : t.Legal ∧ t.inputs = ins :=
      ⟨stepKeepsLegal s t hl h.step_eq, by rw [h.inputs_eq, hi, List.tail_cons]⟩
    cases hv : s.nextInput.inValid with
    | false =>
      have hstep := State.StepsTo.idle hri hv
      obtain ⟨hlt, hit⟩ := hnext hstep
      rw [deliveredBytes_cons_bytes, Input.bytes_of_idle hv, List.nil_append] at hi' ⊢
      have hpast' : (deliveredBytes (past ++ [s.nextInput])).length = (deliveredBytes past').length := by
        rw [deliveredBytes_append_singleton, Input.bytes_of_idle hv, List.append_nil, hpast]
      obtain ⟨o, o', hobs, hobs', hsame⟩ := ih (s := s.consumeInput.clearValid) hs hlt hit hi' hrest hpast'
      rw [← List.append_cons] at hsame
      exact ⟨o, o', hstep.observeSteps_cons (State.emitted_of_no_pulse rfl) hobs, hobs', hsame⟩
    | true =>
      have hstream : streamBytes (deliveredBytes (s.nextInput :: ins)) =
          s.nextInput :: streamBytes (deliveredBytes ins) := by
        rw [deliveredBytes_cons_bytes, Input.bytes_of_byte hri hv]
        exact congrArg (· :: _) (Input.eq_byte hri hv).symm
      rw [hstream] at hi' ⊢
      obtain ⟨t, hstep⟩ := hl.exists_stepsTo
      obtain ⟨hlt, hit⟩ := hnext hstep
      obtain ⟨t', hstep', hst, hemitted⟩ := hstep.exists_same hs (State.nextInput_of_inputs hi').symm
      obtain ⟨e, he⟩ := hlt.exists_emitted
      have hit' : t'.inputs = streamBytes (deliveredBytes ins) := by rw [hstep'.inputs_eq, hi', List.tail_cons]
      have hpast' : (deliveredBytes (past ++ [s.nextInput])).length =
          (deliveredBytes (past' ++ [s.nextInput])).length := by
        rw [deliveredBytes_append_singleton, deliveredBytes_append_singleton, List.length_append, List.length_append,
          hpast]
      obtain ⟨o, o', hobs, hobs', hsame⟩ := ih hst hlt hit hit' hrest hpast'
      exact ⟨_, _, hstep.observeSteps_cons he hobs, hstep'.observeSteps_cons (hemitted ▸ he) hobs',
        hsame.withStep hpast e⟩

/-- R71 for one sequence of inputs: the run over it goes like the `feed` of its bytes. -/
theorem State.Legal.observe_sameByByte_feed {s : State} (h : s.Legal) {ins : List Input} (hr : NoReset ins) :
    ∃ o o' : Observation, observe s ins = .next o ∧ feed s (deliveredBytes ins) = .next o' ∧
      o.SameByByte ins (streamBytes (deliveredBytes ins)) o' := by
  have hsame : (s.present ins).SameButPulse (s.present (streamBytes (deliveredBytes ins))) :=
    ⟨rfl, rfl, rfl, rfl, rfl, rfl⟩
  exact hsame.run_sameByByte h rfl rfl hr (past := []) (past' := []) rfl

/-! ### The statement -/

/-- Settles O47: both runs go like the `feed` of the bytes that both deliver. -/
theorem chunkingDoesNotMatter : Obligations.ChunkingDoesNotMatter := by
  intro s ins ins' hs hr hr' hbytes
  obtain ⟨o, fed, hobs, hfeed, hfinal, hemissions⟩ := hs.observe_sameByByte_feed hr
  obtain ⟨o', fed', hobs', hfeed', hfinal', hemissions'⟩ := hs.observe_sameByByte_feed hr'
  rw [← hbytes] at hfeed' hemissions'
  obtain rfl := Host.Outcome.next.inj (hfeed.symm.trans hfeed')
  exact ⟨o, o', hobs, hobs', hfinal.trans_symm hfinal',
    (observe_final_inputs hobs).trans (observe_final_inputs hobs').symm, hemissions.trans hemissions'.symm⟩

end Sys2Proof.Machine
end

section
/-! Statements of spec/60_exceptions.md. The layers are: how mode `P` is entered, where an emission and a reset leave the
SFS, how many emissions a run makes and in which steps, runs from legal states, and the statements. -/

namespace Sys2Proof.Machine

open Sys2Proof.Config

/-! ### How mode `P` is entered (R58, R84) -/

/-- From mode `M`, the `LF` of a marker line leads to mode `P`, and every other step stays. -/
theorem State.StepsTo.mode_eq_P_iff {s t : State} (h : s.StepsTo t) (hm : s.mode = .M) :
    t.mode = .P ↔ s.nextInput.rst = false ∧ s.nextInput.inValid = true ∧ s.nextInput.inData = lf ∧
      s.lineIsMarker = true := by
  cases h with
  | reset hr => simp [hr]
  | idle hr hv => simp [hm, hv]
  | markerLine _ hr hv hd hl => simp [hr, hv, hd, hl]
  | otherLine _ _ _ _ hl => simp [hm, hl]
  | extend _ _ _ hd | kill _ _ _ hd => simp [hm, hd]
  | capture hm' | emit hm' => simp [hm] at hm'

/-! ### Where an emission and a reset leave the SFS (R66, R91) -/

/-- While the pulse of an emission is up, the next byte starts a line. -/
theorem State.Legal.atLineStart_of_pulse {s : State} (h : s.Legal) (hv : s.outValid = true) : s.AtLineStart := by
  obtain ⟨hcount, -, -, -, -, hpulse, -⟩ := h
  obtain ⟨-, hm, hp, hd⟩ := hpulse hv
  exact ⟨hm, hp, hd, hcount hm⟩

theorem State.StepsTo.atLineStart_of_reset {s t : State} (h : s.StepsTo t) (hr : s.nextInput.rst = true) :
    t.AtLineStart := by
  obtain rfl := Host.Outcome.next.inj ((step_reset hr).symm.trans h.step_eq)
  exact ⟨rfl, rfl, rfl, rfl⟩

/-! ### The emissions of a run (R76) -/

/-- A step adds at most one emission, so a run makes no more emissions than steps. -/
theorem observeSteps_emissions_length_le {n t : Nat} {s : State} {o : Observation}
    (h : observeSteps n t s = .next o) : o.emissions.length ≤ n := by
  induction n generalizing t s o with
  | zero =>
    obtain rfl : ⟨[], s⟩ = o := Host.Outcome.next.inj h
    exact Nat.le_refl 0
  | succ n ih =>
    obtain ⟨s', e, o', -, -, hrest, rfl⟩ := observeSteps_succ_eq_next.mp h
    cases e with
    | none => exact Nat.le_succ_of_le (ih hrest)
    | some sp => exact Nat.succ_le_succ (ih hrest)

/-- The emissions of a run of `n` steps, the first of them step `t`, have step numbers below `t + n`. -/
theorem observeSteps_time_lt {n t : Nat} {s : State} {o : Observation} (h : observeSteps n t s = .next o) :
    ∀ e ∈ o.emissions, e.time < t + n := by
  induction n generalizing t s o with
  | zero =>
    obtain rfl : ⟨[], s⟩ = o := Host.Outcome.next.inj h
    exact List.forall_mem_nil _
  | succ n ih =>
    obtain ⟨s', e, o', -, -, hrest, rfl⟩ := observeSteps_succ_eq_next.mp h
    have hlater : ∀ e ∈ o'.emissions, e.time < t + (n + 1) := fun e he => by
      have := ih hrest e he
      omega
    cases e with
    | none => exact hlater
    | some sp => exact List.forall_mem_cons.mpr ⟨Nat.lt_add_of_pos_right n.succ_pos, hlater⟩

/-! ### Runs from legal states (R77, R78) -/

/-- A run from a legal state goes on through every step, each of which is legal and shows its emission. -/
theorem State.Legal.exists_observeSteps {s : State} (h : s.Legal) (n t : Nat) :
    ∃ o : Observation, observeSteps n t s = .next o ∧ o.final.Legal := by
  induction n generalizing s t with
  | zero => exact ⟨⟨[], s⟩, rfl, h⟩
  | succ n ih =>
    obtain ⟨s', hstep⟩ := h.exists_stepsTo
    have hlegal : s'.Legal := stepKeepsLegal s s' h hstep.step_eq
    obtain ⟨e, he⟩ := hlegal.exists_emitted
    obtain ⟨o, hobs, hfinal⟩ := ih hlegal (t + 1)
    refine ⟨o.withStep t e, observeSteps_succ_eq_next.mpr ⟨s', e, o, hstep.step_eq, he, hobs, rfl⟩, ?_⟩
    rwa [Observation.withStep_final]

/-! ### The statements -/

/-- Settles O10: the operation by the pins and the mode, and the emissions because the run has one step. -/
theorem stepFollowsPriority : Obligations.StepFollowsPriority :=
  fun _ => ⟨step_reset, step_idle, fun hr hv hm => step_pByte hm hr hv, fun hr hv hm hd => step_mLf hm hr hv hd,
    fun hr hv hm hd => step_mChr hm hr hv hd, fun _ _ hobs => observeSteps_emissions_length_le hobs⟩

/-- Settles O22, by the cases of a step from mode `M`. -/
theorem payloadModeEnteredOnlyByMarker : Obligations.PayloadModeEnteredOnlyByMarker := by
  intro s t hm hstep
  rw [← s.lineIsMarker_iff]
  exact (step_eq_next_iff.mp hstep).mode_eq_P_iff hm

/-- Settles O40: an emission raises the pulse, which in a legal state stands at the start of a line, and a reset clears
the line. -/
theorem legalStepGoesOn : Obligations.LegalStepGoesOn := by
  intro s hs
  obtain ⟨t, ht⟩ := hs.exists_stepsTo
  have hlegal : t.Legal := stepKeepsLegal s t hs ht.step_eq
  refine ⟨t, ht.step_eq, ?_⟩
  rintro (hemits | hreset)
  · exact hlegal.atLineStart_of_pulse (ht.outValid_iff_emits.mpr hemits)
  · exact ht.atLineStart_of_reset hreset

/-- Settles O41, by induction on the steps: every state of the run is legal, so each goes on. -/
theorem noInputIsAnError : Obligations.NoInputIsAnError := by
  intro s ins hs
  have hstart : (s.present ins).Legal := hs
  obtain ⟨o, hobs, hfinal⟩ := hstart.exists_observeSteps ins.length 0
  have htime := observeSteps_time_lt hobs
  rw [Nat.zero_add] at htime
  exact ⟨o, hobs, hfinal, observe_final_inputs hobs, htime⟩

end Sys2Proof.Machine
end

section
/-! Statements of spec/70_reset_and_hazards.md. The layers are: the word and the runs of RESET, the step numbers of a
run, the first frame after a marker line, the `LF` before a false lock, and the statements. -/

namespace Sys2Proof.Machine

open Sys2Proof.Config

/-! ### RESET (R50, R91) -/

theorem encode_reset_of_row {w : DecodeWord} (h : w &&& 0x400#11 = 0x400#11) :
    encode (.reset (wordMode w) (wordValid w) (wordData w)) = w := by
  have hrow := selects_reset_row (wordRst w) (wordMode w) (wordValid w) (wordData w)
  rw [formWord_fields, OpRow.selects, beq_iff_eq.mpr h] at hrow
  conv_rhs => rw [← formWord_fields w, ← hrow]
  rfl

/-- Of the state before a RESET step nothing is left but the inputs still to come. -/
theorem step_present_reset (s : State) {r : Input} (hr : r.rst = true) (ins : List Input) :
    step (s.present (r :: ins)) = .next (State.reset.present ins) := step_reset hr

theorem run_succ_of_step {M : Host.Core} {s t : M.State} (h : M.step s = .next t) (n : Nat) :
    M.run (n + 1) s = M.run n t := by
  rw [Host.Core.run, h]

/-- RESET steps from the reset state stay there. -/
theorem core_run_resets {resets : List Input} (hr : ∀ i ∈ resets, i.rst = true) (rest : List Input) :
    core.run resets.length (State.reset.present (resets ++ rest)) = .next (State.reset.present rest) := by
  induction resets with
  | nil => rfl
  | cons r resets ih =>
    obtain ⟨hri, hrest⟩ := List.forall_mem_cons.mp hr
    exact (run_succ_of_step (M := core) (step_present_reset _ hri _) _).trans (ih hrest)

/-! ### The step numbers of a run (R76) -/

theorem andThen_assoc {α β γ : Type} (x : Answer α) (f : α → Answer β) (g : β → Answer γ) :
    andThen (andThen x f) g = andThen x fun a => andThen (f a) g := by
  cases x <;> rfl

theorem andThen_next_right {α : Type} (x : Answer α) : andThen x .next = x := by
  cases x <;> rfl

/-- The same emissions, each `m` steps later. -/
def Observation.delay (o : Observation) (m : Nat) : Observation :=
  ⟨o.emissions.map fun e => ⟨e.time + m, e.spectrum⟩, o.final⟩

theorem Observation.delay_withStep (o : Observation) (t m : Nat) (e : Option Spectrum) :
    (o.withStep t e).delay m = (o.delay m).withStep (t + m) e := by
  cases e <;> rfl

/-- A run whose first step has a later number is the same run with later emissions. -/
theorem observeSteps_delay (n t m : Nat) (s : State) :
    observeSteps n (t + m) s = andThen (observeSteps n t s) fun o => .next (o.delay m) := by
  induction n generalizing t s with
  | zero => rfl
  | succ n ih =>
    simp only [observeSteps, Nat.add_right_comm t m 1, ih, andThen_assoc, andThen_next, Observation.delay_withStep]

/-- A step without a pulse adds nothing to the run after it. -/
theorem observeSteps_of_silent_step {s s' : State} (hs : step s = .next s') (hv : s'.outValid = false) (n t : Nat) :
    observeSteps (n + 1) t s = observeSteps n (t + 1) s' := by
  rw [observeSteps, hs, andThen_next, State.emitted_of_no_pulse hv, andThen_next]
  exact andThen_next_right _

/-! ### The first frame after a marker line (R97) -/

/-- The first 576 of the bytes. -/
def frameAtHead (bs : List Byte) (h : 576 ≤ bs.length) : Frame :=
  Vector.ofFn fun k : Fin frameBytes => bs[k.val]'(Nat.lt_of_lt_of_le k.isLt h)

theorem frameAtHead_append_drop (bs : List Byte) (h : 576 ≤ bs.length) :
    (frameAtHead bs h).toList ++ bs.drop 576 = bs := by
  have htake : (frameAtHead bs h).toList = bs.take 576 := by
    refine List.ext_getElem ?_ fun k _ _ => ?_
    · rw [Vector.length_toList, List.length_take_of_le h]
    · simp [frameAtHead]
  rw [htake, List.take_append_drop]

/-- Bytes that come later do not take an emission back. -/
theorem Source.DrainsTo.emissions_prefix {d d₁ d₂ : Source} {p q : List Byte} {es₁ es₂ : List Spectrum}
    (h₁ : (d.receive p).DrainsTo es₁ d₁) (h₂ : (d.receive q).DrainsTo es₂ d₂) (hpq : p <+: q) : es₁ <+: es₂ := by
  obtain ⟨more, rfl⟩ := hpq
  have hmore := Source.drainsTo_drain (Nat.le_refl (d₁.receive more).buffer.length)
  rw [← Source.receive_receive] at h₂
  obtain ⟨rfl, -⟩ := h₂.unique (h₁.receive hmore)
  exact List.prefix_append _ _

/-- From the start of a line, the run over `MARKER` and a frame emits the frame's unpack first, in the step of byte 583,
whatever comes after it. -/
theorem State.Follows.firstEmission_of_frame {s : State} (h : s.Follows Source.start) {ins : List Input}
    (hi : s.inputs = ins) (hr : NoReset ins) {f : Frame} {rest : List Byte}
    (hbytes : deliveredBytes ins = marker ++ f.toList ++ rest) (t : Nat) :
    ∃ (o : Observation) (k : Nat) (es : List Emission), observeSteps ins.length t s = .next o ∧
      o.emissions = ⟨t + k, unpack f⟩ :: es ∧
      (deliveredBytes (ins.take k)).length = 582 ∧ (deliveredBytes (ins.take (k + 1))).length = 583 := by
  obtain ⟨o, d, hobs, hrun, -⟩ := h.run hi hr t
  have hdrain := Source.drainsTo_drain (Nat.le_refl (Source.mk .M rest).buffer.length)
  have hframe : (Source.start.receive (marker ++ f.toList)).DrainsTo [unpack f] ⟨.M, []⟩ := by
    rw [← List.append_nil f.toList]
    exact .marker_line (.frame f (.settled rfl))
  have hall := hframe.receive (bs := rest) hdrain
  rw [Source.receive_receive, ← hbytes] at hall
  obtain ⟨hes, -⟩ := hrun.unique hall
  obtain ⟨⟨time, sp⟩, es, hfirst, hsp, -⟩ := List.map_eq_cons_iff.mp hes
  obtain rfl : sp = unpack f := hsp
  obtain ⟨k, d₀, d₁, htime, hbefore, hat⟩ := h.firstEmission hi hr hobs hfirst
  obtain rfl : time = t + k := htime
  have hge : 583 ≤ (deliveredBytes (ins.take (k + 1))).length := hat.bytesToEmit_le (by simp)
  have hlt : (deliveredBytes (ins.take k)).length < 583 := by
    by_contra hnot
    have hlen : (marker ++ f.toList).length = 583 := by
      rw [List.length_append, Vector.length_toList]
      rfl
    have hpre : marker ++ f.toList <+: deliveredBytes (ins.take k) :=
      List.prefix_of_prefix_length_le ⟨rest, hbytes.symm⟩ (deliveredBytes_take_prefix ins k) (by omega)
    exact absurd (hframe.emissions_prefix hbefore hpre).length_le (by simp)
  have hstep := length_deliveredBytes_take_succ_le ins k
  exact ⟨o, k, es, hobs, hfirst, by omega, by omega⟩

/-! ### The `LF` before a false lock (R58, R96) -/

/-- The `LF` of a line that is not the marker's leads to the start of a line, and nothing is emitted up to it. The line
registers may have any other values, also those that describe no line (assumption log 15). -/
theorem State.exists_line_start_after_lf {s : State} {ins : List Input} (hi : s.inputs = ins) (hm : s.mode = .M)
    (hc : s.pcount = 0#10) (hl : s.lineIsMarker = false) (hr : NoReset ins) {bs : List Byte}
    (hbytes : deliveredBytes ins = lf :: bs) :
    ∃ (line rest : List Input) (s' : State), ins = line ++ rest ∧ deliveredBytes line = [lf] ∧ s'.AtLineStart ∧
      s'.inputs = rest ∧
      ∀ n t : Nat, observeSteps (line.length + n) t s = observeSteps n (t + line.length) s' := by
  induction ins generalizing s with
  | nil => exact nomatch hbytes
  | cons i ins ih =>
    obtain ⟨hri, hrest⟩ := List.forall_mem_cons.mp hr
    obtain rfl : s.nextInput = i := State.nextInput_of_inputs hi
    have htail : s.inputs.tail = ins := by rw [hi, List.tail_cons]
    rw [deliveredBytes_cons_bytes] at hbytes
    cases hv : s.nextInput.inValid with
    | false =>
      rw [Input.bytes_of_idle hv, List.nil_append] at hbytes
      obtain ⟨line, rest, s', rfl, hline, hstart, hinputs, hrun⟩ :=
        ih (s := s.consumeInput.clearValid) htail hm hc hl hrest hbytes
      refine ⟨s.nextInput :: line, rest, s', rfl, ?_, hstart, hinputs, fun n t => ?_⟩
      · rw [deliveredBytes_cons_bytes, Input.bytes_of_idle hv, hline, List.nil_append]
      · rw [List.length_cons, Nat.add_right_comm, observeSteps_of_silent_step (State.StepsTo.idle hri hv).step_eq rfl,
          hrun, Nat.add_assoc, Nat.add_comm 1]
    | true =>
      rw [Input.bytes_of_byte hri hv] at hbytes
      obtain ⟨hd, -⟩ := List.cons.inj hbytes
      have hstep := State.StepsTo.otherLine hm hri hv hd (Bool.eq_false_iff.mp hl)
      refine ⟨[s.nextInput], ins, s.consumeInput.startLine.clearValid, rfl, ?_, ⟨hm, rfl, rfl, hc⟩, htail,
        fun n t => ?_⟩
      · rw [deliveredBytes_cons_bytes, Input.bytes_of_byte hri hv, hd, deliveredBytes_nil, List.append_nil]
      · rw [List.length_singleton, Nat.add_comm 1 n]
        exact observeSteps_of_silent_step hstep.step_eq rfl n t

/-! ### The statements -/

/-- Settles O14: the first RESET step leads to the reset state, and the others stay there. -/
theorem consecutiveResetsActAsOne : Obligations.ConsecutiveResetsActAsOne := by
  intro s resets rest hne hr
  obtain ⟨r, resets, rfl⟩ := List.exists_cons_of_ne_nil hne
  obtain ⟨hri, hresets⟩ := List.forall_mem_cons.mp hr
  have hfirst := step_present_reset s hri (resets ++ rest)
  exact (run_succ_of_step (M := core) hfirst _).trans (core_run_resets hresets rest)

/-- Settles O15: the RESET step emits nothing, and every step after it has the number one higher. -/
theorem resetForgetsTheStateBefore : Obligations.ResetForgetsTheStateBefore := by
  intro s r ins hr
  calc observe s (r :: ins)
      = observeSteps ins.length (0 + 1) (State.reset.present ins) :=
        observeSteps_of_silent_step (step_present_reset s hr ins) rfl ins.length 0
    _ = andThen (observe State.reset ins) fun o => .next (o.delay 1) := observeSteps_delay _ _ _ _

/-- Settles O44: the source's decoder takes its first frame from the bytes at the head. -/
theorem nextBytesAreTheFrame : Obligations.NextBytesAreTheFrame := by
  intro s ins bs h hs hr hbytes
  have hstart : (s.present ins).Follows Source.start := State.AtLineStart.follows hs
  have hframe : deliveredBytes ins = marker ++ (frameAtHead bs h).toList ++ bs.drop 576 := by
    rw [hbytes, List.append_assoc, frameAtHead_append_drop]
  obtain ⟨o, k, es, hobs, hfirst, hbefore, hat⟩ := hstart.firstEmission_of_frame rfl hr hframe 0
  rw [Nat.zero_add] at hfirst
  exact ⟨o, _, es, hobs, hfirst, rfl, hbefore, hat⟩

/-- Settles O45: the `LF` ends the line, and from there it is the run over a marker line and a frame. -/
theorem falseLockEmits : Obligations.FalseLockEmits := by
  intro s ins f hm hc hl hr hbytes
  obtain ⟨line, rest, s', rfl, hline, hstart, rfl, hrun⟩ :=
    State.exists_line_start_after_lf (s := s.present ins) rfl hm hc hl hr hbytes
  have hrest : deliveredBytes s'.inputs = marker ++ f.toList := by
    rw [deliveredBytes_append, hline] at hbytes
    exact List.tail_eq_of_cons_eq hbytes
  obtain ⟨o, t, hobs, hone, hbefore, hat, hfinal, -⟩ :=
    markerAndFrameEmitOnce s' s'.inputs f hstart (fun i hi => hr i (List.mem_append_right line hi)) hrest
  have hobs : observeSteps s'.inputs.length 0 s' = .next o := hobs
  have hcount (k : Nat) : (deliveredBytes ((line ++ s'.inputs).take (k + line.length))).length =
      (deliveredBytes (s'.inputs.take k)).length + 1 := by
    rw [Nat.add_comm k, List.take_length_add_append, deliveredBytes_append, hline, List.length_append,
      List.length_singleton, Nat.add_comm]
  refine ⟨o.delay line.length, t + line.length, ?_, ?_, ?_, ?_, hfinal⟩
  · rw [observe, List.length_append, hrun, observeSteps_delay, hobs, andThen_next]
  · rw [Observation.delay, hone]
    rfl
  · rw [hcount, hbefore]
  · rw [Nat.add_right_comm, hcount, hat]

/-- Settles O46: the source's decoder needs more bytes to emit, and a run that emits nothing writes no Spectrum. -/
theorem fewerThan583BytesFromLineStartEmitNothing : Obligations.FewerThan583BytesFromLineStartEmitNothing := by
  intro s ins hs hr hfew
  have hstart : (s.present ins).Follows Source.start := State.AtLineStart.follows hs
  obtain ⟨o, d, hobs, hrun, -⟩ := hstart.run rfl hr 0
  have hnone : spectraOf o.emissions = [] := by
    by_contra hsome
    have hmany : 583 ≤ (deliveredBytes ins).length := hrun.bytesToEmit_le hsome
    omega
  have hspec := observeSteps_outSpec rfl hr hobs
  rw [hnone, List.getLast?_nil, Option.none_or] at hspec
  exact ⟨o, hobs, List.map_eq_nil_iff.mp hnone, hspec⟩

/-- Settles O12: the row fixes `rst`, and the operation reads no field and no register. -/
theorem resetWritesEveryRegister : Obligations.ResetWritesEveryRegister :=
  ⟨fun _ hw => decodeWord_of_encode (encode_reset_of_row hw) rfl, fun _ _ _ s =>
    ⟨s.clear, rfl, rfl, rfl, rfl, rfl, rfl, rfl, rfl, Memory.get?_nil, rfl, fun _ _ _ => rfl⟩⟩

end Sys2Proof.Machine
end
